-- ==== Sys2Proof/Word.lean ====
section
/-! DEFINITION. The machine's plain widths: byte, word, memory address, register index (00_scope.md R6, 10_state.md R20, 20_memory.md R50). -/

namespace Sys2Proof

/-- An 8-bit value: a general register, a timer, a memory cell (R20, R27, R55). -/
abbrev Byte := BitVec 8

/-- A 16-bit value: an instruction word, `I`, `PC`, a return address (R70, R25, R23, R26). -/
abbrev Word := BitVec 16

/-- A memory address, 0x000 to 0xFFF: "An address is 12 bits" (R50). -/
abbrev Addr := BitVec 12

/-- A register index, 0 to 15 (R20). -/
abbrev RegIx := Fin 16

/-- `VF` is `V[15]` (R8, R22). -/
abbrev VF : RegIx := 15

end Sys2Proof
end

