-- ==== Sys2Proof/Syntax.lean ====
section
/-! DEFINITION. The 34 instruction forms of 30_encoding.md R75, one constructor per row, in the table's order. -/

namespace Sys2Proof

/-- One form of R75 with its operand fields (R71, R74; the names are log 25). The row count of Dxyn is a count, a `Nat`
that `WellFormed` bounds by 15 (log 14); every other field's type is exactly its range. -/
inductive Instr where
  /-- 00E0 CLS -/
  | cls
  /-- 00EE RET -/
  | ret
  /-- 1nnn JP nnn -/
  | jp (nnn : Addr)
  /-- 2nnn CALL nnn -/
  | call (nnn : Addr)
  /-- 3xkk SE Vx, kk -/
  | seImm (x : RegIx) (kk : Byte)
  /-- 4xkk SNE Vx, kk -/
  | sneImm (x : RegIx) (kk : Byte)
  /-- 5xy0 SE Vx, Vy -/
  | seReg (x y : RegIx)
  /-- 6xkk LD Vx, kk -/
  | ldImm (x : RegIx) (kk : Byte)
  /-- 7xkk ADD Vx, kk -/
  | addImm (x : RegIx) (kk : Byte)
  /-- 8xy0 LD Vx, Vy -/
  | ldReg (x y : RegIx)
  /-- 8xy1 OR Vx, Vy -/
  | orReg (x y : RegIx)
  /-- 8xy2 AND Vx, Vy -/
  | andReg (x y : RegIx)
  /-- 8xy3 XOR Vx, Vy -/
  | xorReg (x y : RegIx)
  /-- 8xy4 ADD Vx, Vy -/
  | addReg (x y : RegIx)
  /-- 8xy5 SUB Vx, Vy -/
  | subReg (x y : RegIx)
  /-- 8xy6 SHR Vx, Vy -/
  | shr (x y : RegIx)
  /-- 8xy7 SUBN Vx, Vy -/
  | subnReg (x y : RegIx)
  /-- 8xyE SHL Vx, Vy -/
  | shl (x y : RegIx)
  /-- 9xy0 SNE Vx, Vy -/
  | sneReg (x y : RegIx)
  /-- Annn LD I, nnn -/
  | ldI (nnn : Addr)
  /-- Bnnn JP V0, nnn -/
  | jpV0 (nnn : Addr)
  /-- Cxkk RND Vx, kk -/
  | rnd (x : RegIx) (kk : Byte)
  /-- Dxyn DRW Vx, Vy, n -/
  | drw (x y : RegIx) (n : Nat)
  /-- Ex9E SKP Vx -/
  | skp (x : RegIx)
  /-- ExA1 SKNP Vx -/
  | sknp (x : RegIx)
  /-- Fx07 LD Vx, DT -/
  | ldVxDt (x : RegIx)
  /-- Fx0A LD Vx, K -/
  | ldVxK (x : RegIx)
  /-- Fx15 LD DT, Vx -/
  | ldDtVx (x : RegIx)
  /-- Fx18 LD ST, Vx -/
  | ldStVx (x : RegIx)
  /-- Fx1E ADD I, Vx -/
  | addI (x : RegIx)
  /-- Fx29 LD F, Vx -/
  | ldF (x : RegIx)
  /-- Fx33 LD B, Vx -/
  | ldB (x : RegIx)
  /-- Fx55 LD [I], Vx -/
  | storeRegs (x : RegIx)
  /-- Fx65 LD Vx, [I] -/
  | loadRegs (x : RegIx)
deriving DecidableEq, Repr

end Sys2Proof
end

