-- ==== Sys2Proof/WellFormed.lean ====
section
/-! DEFINITION. Which instruction terms have an encoding (30_encoding.md R74). -/

namespace Sys2Proof

/-- The one bound that a field's type does not already carry: the row count `n` of Dxyn is
`op[3:0]`, 0 to 15 (R74). `n = 0` and `x`, `y` equal to 0xF are well formed (R78). -/
def Instr.wellFormed : Instr → Bool
  | .drw _ _ n => decide (n < 16)
  | .cls | .ret | .jp _ | .call _ | .seImm _ _ | .sneImm _ _ | .seReg _ _ | .ldImm _ _
  | .addImm _ _ | .ldReg _ _ | .orReg _ _ | .andReg _ _ | .xorReg _ _ | .addReg _ _
  | .subReg _ _ | .shr _ _ | .subnReg _ _ | .shl _ _ | .sneReg _ _ | .ldI _ | .jpV0 _
  | .rnd _ _ | .skp _ | .sknp _ | .ldVxDt _ | .ldVxK _ | .ldDtVx _ | .ldStVx _ | .addI _
  | .ldF _ | .ldB _ | .storeRegs _ | .loadRegs _ => true

end Sys2Proof
end

