-- ==== Sys2Proof/Decode.lean ====
section
/-! DEFINITION. The decoder (30_encoding.md R71, R73: dispatch on the high nibble, then on the low nibble or byte), the table of R75 as (mask, match) rows, and the encoder (the formats of R72). -/

namespace Sys2Proof

/-! ## Fields of a word (R71) -/

/-- `op[15:12]`, the major opcode. -/
def majorField (op : Word) : BitVec 4 := op.extractLsb' 12 4

/-- `x = op[11:8]`. -/
def xField (op : Word) : RegIx := (op.extractLsb' 8 4).toFin

/-- `y = op[7:4]`. -/
def yField (op : Word) : RegIx := (op.extractLsb' 4 4).toFin

/-- `n = op[3:0]`, as bits: the minor opcode of format XY. -/
def nField (op : Word) : BitVec 4 := op.extractLsb' 0 4

/-- `kk = op[7:0]`. -/
def kkField (op : Word) : Byte := op.extractLsb' 0 8

/-- `nnn = op[11:0]`. -/
def nnnField (op : Word) : Addr := op.extractLsb' 0 12

/-! ## The table of R75 -/

/-- One row of R75: the form is selected exactly when `op AND mask = pattern` (R73). -/
structure OpcodeRow where
  mask : Word
  pattern : Word
deriving DecidableEq, Repr

/-- R73: the word selects this row's form. -/
def OpcodeRow.selects (r : OpcodeRow) (op : Word) : Bool := op &&& r.mask == r.pattern

/-- Rows 1 to 9 of R75: majors 0 to 7. -/
def opcodeRowsLow : List OpcodeRow :=
  [⟨0xFFFF, 0x00E0⟩, ⟨0xFFFF, 0x00EE⟩, ⟨0xF000, 0x1000⟩, ⟨0xF000, 0x2000⟩, ⟨0xF000, 0x3000⟩,
   ⟨0xF000, 0x4000⟩, ⟨0xF00F, 0x5000⟩, ⟨0xF000, 0x6000⟩, ⟨0xF000, 0x7000⟩]

/-- Rows 10 to 23 of R75: majors 8 to D. -/
def opcodeRowsMid : List OpcodeRow :=
  [⟨0xF00F, 0x8000⟩, ⟨0xF00F, 0x8001⟩, ⟨0xF00F, 0x8002⟩, ⟨0xF00F, 0x8003⟩, ⟨0xF00F, 0x8004⟩,
   ⟨0xF00F, 0x8005⟩, ⟨0xF00F, 0x8006⟩, ⟨0xF00F, 0x8007⟩, ⟨0xF00F, 0x800E⟩, ⟨0xF00F, 0x9000⟩,
   ⟨0xF000, 0xA000⟩, ⟨0xF000, 0xB000⟩, ⟨0xF000, 0xC000⟩, ⟨0xF000, 0xD000⟩]

/-- Rows 24 to 34 of R75: majors E and F. -/
def opcodeRowsHigh : List OpcodeRow :=
  [⟨0xF0FF, 0xE09E⟩, ⟨0xF0FF, 0xE0A1⟩, ⟨0xF0FF, 0xF007⟩, ⟨0xF0FF, 0xF00A⟩, ⟨0xF0FF, 0xF015⟩,
   ⟨0xF0FF, 0xF018⟩, ⟨0xF0FF, 0xF01E⟩, ⟨0xF0FF, 0xF029⟩, ⟨0xF0FF, 0xF033⟩, ⟨0xF0FF, 0xF055⟩,
   ⟨0xF0FF, 0xF065⟩]

/-- The 34 rows of R75, in the table's order. -/
def opcodeRows : List OpcodeRow := opcodeRowsLow ++ opcodeRowsMid ++ opcodeRowsHigh

/-- The position of an instruction's row in `opcodeRows`, counting from 0 (R75's `#` less one). -/
def Instr.rowIndex : Instr → Nat
  | .cls => 0
  | .ret => 1
  | .jp _ => 2
  | .call _ => 3
  | .seImm _ _ => 4
  | .sneImm _ _ => 5
  | .seReg _ _ => 6
  | .ldImm _ _ => 7
  | .addImm _ _ => 8
  | .ldReg _ _ => 9
  | .orReg _ _ => 10
  | .andReg _ _ => 11
  | .xorReg _ _ => 12
  | .addReg _ _ => 13
  | .subReg _ _ => 14
  | .shr _ _ => 15
  | .subnReg _ _ => 16
  | .shl _ _ => 17
  | .sneReg _ _ => 18
  | .ldI _ => 19
  | .jpV0 _ => 20
  | .rnd _ _ => 21
  | .drw _ _ _ => 22
  | .skp _ => 23
  | .sknp _ => 24
  | .ldVxDt _ => 25
  | .ldVxK _ => 26
  | .ldDtVx _ => 27
  | .ldStVx _ => 28
  | .addI _ => 29
  | .ldF _ => 30
  | .ldB _ => 31
  | .storeRegs _ => 32
  | .loadRegs _ => 33

/-! ## Decoding (R73, R94) -/

/-- Major 0x0: only the two FIX words (R75 rows 1, 2; R77; D1). -/
def decodeMajor0 (op : Word) : Option Instr :=
  match nnnField op with
  | 0x0E0#12 => some .cls
  | 0x0EE#12 => some .ret
  | _ => none

/-- Major 0x8: nine forms by the low nibble (R75 rows 10 to 18; R77). -/
def decodeMajor8 (op : Word) : Option Instr :=
  match nField op with
  | 0x0#4 => some (.ldReg (xField op) (yField op))
  | 0x1#4 => some (.orReg (xField op) (yField op))
  | 0x2#4 => some (.andReg (xField op) (yField op))
  | 0x3#4 => some (.xorReg (xField op) (yField op))
  | 0x4#4 => some (.addReg (xField op) (yField op))
  | 0x5#4 => some (.subReg (xField op) (yField op))
  | 0x6#4 => some (.shr (xField op) (yField op))
  | 0x7#4 => some (.subnReg (xField op) (yField op))
  | 0xE#4 => some (.shl (xField op) (yField op))
  | _ => none

/-- Major 0xE: two forms by the low byte (R75 rows 24, 25; R77). -/
def decodeMajorE (op : Word) : Option Instr :=
  match kkField op with
  | 0x9E#8 => some (.skp (xField op))
  | 0xA1#8 => some (.sknp (xField op))
  | _ => none

/-- Major 0xF: nine forms by the low byte (R75 rows 26 to 34; R77). -/
def decodeMajorF (op : Word) : Option Instr :=
  match kkField op with
  | 0x07#8 => some (.ldVxDt (xField op))
  | 0x0A#8 => some (.ldVxK (xField op))
  | 0x15#8 => some (.ldDtVx (xField op))
  | 0x18#8 => some (.ldStVx (xField op))
  | 0x1E#8 => some (.addI (xField op))
  | 0x29#8 => some (.ldF (xField op))
  | 0x33#8 => some (.ldB (xField op))
  | 0x55#8 => some (.storeRegs (xField op))
  | 0x65#8 => some (.loadRegs (xField op))
  | _ => none

/-- R73, R94: the form a word selects; `none` is the illegal word of R76.
The low nibble of 5xy0 and 9xy0 must be 0 (R77, 90_conflicts.md C5). -/
def decodeWord (op : Word) : Option Instr :=
  match majorField op with
  | 0x0#4 => decodeMajor0 op
  | 0x1#4 => some (.jp (nnnField op))
  | 0x2#4 => some (.call (nnnField op))
  | 0x3#4 => some (.seImm (xField op) (kkField op))
  | 0x4#4 => some (.sneImm (xField op) (kkField op))
  | 0x5#4 => if nField op = 0x0#4 then some (.seReg (xField op) (yField op)) else none
  | 0x6#4 => some (.ldImm (xField op) (kkField op))
  | 0x7#4 => some (.addImm (xField op) (kkField op))
  | 0x8#4 => decodeMajor8 op
  | 0x9#4 => if nField op = 0x0#4 then some (.sneReg (xField op) (yField op)) else none
  | 0xA#4 => some (.ldI (nnnField op))
  | 0xB#4 => some (.jpV0 (nnnField op))
  | 0xC#4 => some (.rnd (xField op) (kkField op))
  | 0xD#4 => some (.drw (xField op) (yField op) (nField op).toNat)
  | 0xE#4 => decodeMajorE op
  | 0xF#4 => decodeMajorF op
  | _ => none

/-- R52: two bytes of memory as a big-endian word, the byte at the lower address first. -/
def wordOfBytes (hi lo : Byte) : Word := BitVec.ofNat 16 (hi.toNat * 0x100 + lo.toNat)

/-- The high byte `op[15:8]`, stored at the lower address (R52). -/
def highByte (op : Word) : Byte := op.extractLsb' 8 8

/-- The low byte `op[7:0]`, stored at the next address (R52). -/
def lowByte (op : Word) : Byte := op.extractLsb' 0 8

/-- Why a list of bytes gives no instruction. -/
inductive DecodeError where
  /-- The word matches no row of R75 (R76). -/
  | unknownOpcode (op : Word)
  /-- Fewer than the two bytes of one word (R70). -/
  | truncated
deriving DecidableEq, Repr

/-- An instruction and the bytes after it, or the name of what is wrong. Total on any bytes. -/
def decode : List Byte → Except DecodeError (Instr × List Byte)
  | hi :: lo :: rest =>
    match decodeWord (wordOfBytes hi lo) with
    | some i => .ok (i, rest)
    | none => .error (.unknownOpcode (wordOfBytes hi lo))
  | _ => .error .truncated

/-- The decoder as the host asks for it (log 23): `w` holds the word's bits, numbered as
spec/opcode_table.json numbers them, and the bits above `nbits` are 0. -/
def decodeTableWord (nbits w : Nat) : Option Instr :=
  let op : Word := BitVec.ofNat 16 (w % 2 ^ nbits)
  match decode [highByte op, lowByte op] with
  | .ok (i, _) => some i
  | .error _ => none

/-! ## Encoding (R72, R75) -/

/-- Format NNN: major, `nnn`. -/
def encodeNNN (major : Nat) (nnn : Addr) : Word := BitVec.ofNat 16 (major * 0x1000 + nnn.toNat)

/-- Format XKK: major, `x`, `kk`. -/
def encodeXKK (major : Nat) (x : RegIx) (kk : Byte) : Word :=
  BitVec.ofNat 16 (major * 0x1000 + x.val * 0x100 + kk.toNat)

/-- Formats XY and XYN: major, `x`, `y`, and a low nibble that is the fixed minor or `n`. -/
def encodeXYN (major : Nat) (x y : RegIx) (n : Nat) : Word :=
  BitVec.ofNat 16 (major * 0x1000 + x.val * 0x100 + y.val * 0x10 + n)

/-- Format XF: major, `x`, and a fixed low byte. -/
def encodeXF (major : Nat) (x : RegIx) (low : Nat) : Word :=
  BitVec.ofNat 16 (major * 0x1000 + x.val * 0x100 + low)

/-- The word of a well-formed instruction: `match` of its row in R75 with the operands in their fields. -/
def encode : Instr → Word
  | .cls => 0x00E0
  | .ret => 0x00EE
  | .jp nnn => encodeNNN 0x1 nnn
  | .call nnn => encodeNNN 0x2 nnn
  | .seImm x kk => encodeXKK 0x3 x kk
  | .sneImm x kk => encodeXKK 0x4 x kk
  | .seReg x y => encodeXYN 0x5 x y 0x0
  | .ldImm x kk => encodeXKK 0x6 x kk
  | .addImm x kk => encodeXKK 0x7 x kk
  | .ldReg x y => encodeXYN 0x8 x y 0x0
  | .orReg x y => encodeXYN 0x8 x y 0x1
  | .andReg x y => encodeXYN 0x8 x y 0x2
  | .xorReg x y => encodeXYN 0x8 x y 0x3
  | .addReg x y => encodeXYN 0x8 x y 0x4
  | .subReg x y => encodeXYN 0x8 x y 0x5
  | .shr x y => encodeXYN 0x8 x y 0x6
  | .subnReg x y => encodeXYN 0x8 x y 0x7
  | .shl x y => encodeXYN 0x8 x y 0xE
  | .sneReg x y => encodeXYN 0x9 x y 0x0
  | .ldI nnn => encodeNNN 0xA nnn
  | .jpV0 nnn => encodeNNN 0xB nnn
  | .rnd x kk => encodeXKK 0xC x kk
  | .drw x y n => encodeXYN 0xD x y n
  | .skp x => encodeXF 0xE x 0x9E
  | .sknp x => encodeXF 0xE x 0xA1
  | .ldVxDt x => encodeXF 0xF x 0x07
  | .ldVxK x => encodeXF 0xF x 0x0A
  | .ldDtVx x => encodeXF 0xF x 0x15
  | .ldStVx x => encodeXF 0xF x 0x18
  | .addI x => encodeXF 0xF x 0x1E
  | .ldF x => encodeXF 0xF x 0x29
  | .ldB x => encodeXF 0xF x 0x33
  | .storeRegs x => encodeXF 0xF x 0x55
  | .loadRegs x => encodeXF 0xF x 0x65

/-- The instruction as it stands in memory: the high byte first (R52, R53). -/
def encodeBytes (i : Instr) : List Byte := [highByte (encode i), lowByte (encode i)]

end Sys2Proof
end

