-- ==== Sys2Proof/Config.lean ====
section
/-! DEFINITION. The parameters of 00_scope.md R5 as data, the shape of a step's inputs (40_step.md R91), and the free values those inputs take where no host operation of the queue supplies them. -/

namespace Sys2Proof

/-- `KEY_OOR` (R5, R196): what Ex9E and ExA1 do with a key number of 16 or more. -/
inductive KeyPolicy where
  | notPressed
  | mask4
  | fault
deriving DecidableEq, Repr

/-- One sprite of the font: five rows of one byte (20_memory.md R58). -/
abbrev Glyph := Vector Byte 5

/-- `FONT`: sixteen glyphs, one per hexadecimal digit (R58). -/
abbrev Font := Vector Glyph 16

/-- The parameters of R5 that an implementation fixes at power-on.
They are configuration; the state carries them (log 1) and no operation changes them. -/
structure Params where
  /-- `QUIRK_SHIFT`: 8xy6 and 8xyE shift `V[y]` (R31). -/
  quirkShift : Bool
  /-- `QUIRK_INCR_I`: Fx55 and Fx65 advance `I` (R31). -/
  quirkIncrI : Bool
  /-- `STACK_DEPTH`: `none` is unbounded (R26). -/
  stackDepth : Option Nat
  /-- `KEY_OOR` (R196). -/
  keyOor : KeyPolicy
  /-- `FONT`, the bytes `reset` writes at 0x000 (R58, R241). -/
  font : Font
deriving DecidableEq, Repr

/-- The input `keys`: for each key 0..15, whether it is held (R91, R227). -/
abbrev KeyLevels := Vector Bool 16

/-- FREE VALUE (log 3). The keys held at the n-th sampled step, where the host's queue supplies none (R91).
No value of it can be proved. -/
opaque Config.freeKeys : Nat → KeyLevels

/-- FREE VALUE (log 3). The byte `random_byte()` returns in the n-th sampled step, where the host's
queue supplies none (R91, D18: "a free draw"). No value of it can be proved. -/
opaque Config.freeRnd : Nat → Byte

end Sys2Proof
end

