-- ==== Sys2Proof/Machine/Map.lean ====
section
/-! DEFINITION. The address map (20_memory.md R58): its constants, the font table, what memory holds at power-on, and the default parameters (00_scope.md R5). -/

namespace Sys2Proof.Machine

/-- `MEM_SIZE` (R5, R30). -/
def memSize : Nat := 4096

/-- `PROG_BASE`, the load address and the reset value of `PC` (R5, R58). -/
def progBase : Word := 0x200

/-- The highest address at which a two-byte fetch is in range (R92). -/
def lastFetch : Nat := 0xFFE

/-- How many bytes the font occupies, from address 0 (R58). -/
def fontSize : Nat := 80

/-- PRESUMED (log 7): the 80 font bytes of R58, "from general knowledge, not in source" (D13). -/
def defaultFont : Font :=
  #v[#v[0xF0, 0x90, 0x90, 0x90, 0xF0], #v[0x20, 0x60, 0x20, 0x20, 0x70],
     #v[0xF0, 0x10, 0xF0, 0x80, 0xF0], #v[0xF0, 0x10, 0xF0, 0x10, 0xF0],
     #v[0x90, 0x90, 0xF0, 0x10, 0x10], #v[0xF0, 0x80, 0xF0, 0x10, 0xF0],
     #v[0xF0, 0x80, 0xF0, 0x90, 0xF0], #v[0xF0, 0x10, 0x20, 0x40, 0x40],
     #v[0xF0, 0x90, 0xF0, 0x90, 0xF0], #v[0xF0, 0x90, 0xF0, 0x10, 0xF0],
     #v[0xF0, 0x90, 0xF0, 0x90, 0x90], #v[0xE0, 0x90, 0xE0, 0x90, 0xE0],
     #v[0xF0, 0x80, 0x80, 0x80, 0xF0], #v[0xE0, 0x90, 0x90, 0x90, 0xE0],
     #v[0xF0, 0x80, 0xF0, 0x80, 0xF0], #v[0xF0, 0x80, 0xF0, 0x80, 0x80]]

/-- The font's bytes in address order: glyph d at 5d, its top row first (R58). -/
def fontBytes (f : Font) : List Byte := f.toList.flatMap (fun g => g.toList)

/-- DESIGN CHOICE (log 8): `MEM_INIT`, what memory outside the font holds at power-on; all 0x00 by default
(R5, R240, D14). -/
def memInit (_ : Nat) : Byte := 0x00

/-- What an address that the memory list does not name reads as: the contents after power-on with the
default parameters (R38, R240), the font below 0x050 and `MEM_INIT` above. -/
def unlisted (a : Nat) : Byte :=
  if a < fontSize then (fontBytes defaultFont).getD a 0x00 else memInit a

/-- The parameters "for this hardware" (R5): an unsupplied strap is false (D16), the stack unbounded
(D17), `KEY_OOR` is `not_pressed` (D9), the font is the table of R58 (D13). -/
def defaultParams : Params :=
  { quirkShift := false
    quirkIncrI := false
    stackDepth := none
    keyOor := .notPressed
    font := defaultFont }

end Sys2Proof.Machine
end

