-- ==== Sys2Proof/Machine/State.lean ====
section
/-! DEFINITION. The state of the core (10_state.md R29), the model's own fields beside it, the faults and refusals, and the state after power-on. -/

namespace Sys2Proof.Machine

/-- The fault kinds: "The model's fault type is exactly this list" (60_exceptions.md R210).
A raised fault is latched in `State.fault` and the machine has a next state (R215, log 5); no step of
this model ends in `Outcome.fault`. -/
inductive Fault where
  /-- Raised by a step at decode: the fetched word `op` matches no form (R211). Safe: the spec's own fault. -/
  | unknownOpcode (op : Word)
  /-- Raised by 00EE on an empty stack (R212, D4). Safe: a machine that goes on there does more. -/
  | stackUnderflow
  /-- Raised by a step at fetch when `PC > 0xFFE` (R213, D5). Safe: a machine that wraps does more. -/
  | fetchOutOfRange (pc : Word)
  /-- Raised by 2nnn on a full stack, only with a finite `STACK_DEPTH` (R214, D17). Safe. -/
  | stackOverflow
  /-- Raised by Ex9E and ExA1 with a key number of 16 or more, only with `KEY_OOR = fault` (R214, D9). Safe. -/
  | keyIndexOutOfRange (v : Byte)
  /-- The error result of `loadProgram`, never latched (R245). Safe: the spec's own result. -/
  | outOfBoundsLoad
deriving DecidableEq, Repr

/-- Why a step has no meaning. -/
inductive Refusal where
  /-- Raised by `exec` for an instruction without a meaning yet (none is left). Safe. -/
  | notModelled (mnemonic : String)
  /-- Raised when the host's queue asks for `deliverKey(k)` with k above 15: "the host must not send it and
  the model refuses the call" (R217, D20). Safe: the interface has no such call. -/
  | keyNumberOutOfRange (k : Nat)
deriving DecidableEq, Repr

/-- The five host operations (20_memory.md R57, D22), with their arguments; `step` carries the inputs of
40_step.md R91. -/
inductive HostOp where
  | step (keys : KeyLevels) (rnd : Byte)
  | tick
  | deliverKey (k : Nat)
  | loadProgram (bytes : List Byte)
  | reset
deriving DecidableEq, Repr

/-- What the core tells the host besides its level outputs (60_exceptions.md R228, log 6). -/
inductive Event where
  /-- The "cleared" notification of 00E0 (R181). -/
  | fbCleared
  /-- The result of `loadProgram`: `none` is ok, `some outOfBoundsLoad` the rejection (R244, R245). -/
  | loadResult (error : Option Fault)
deriving DecidableEq, Repr

/-- `FB[r][c]`: 32 rows of 64 one-bit cells (R28). -/
abbrev FrameBuffer := Vector (Vector Bool 64) 32

/-- The listed cells of `MEM`, in the canonical form `Memory.wf`; any other address reads as `unlisted`. -/
abbrev Memory := List Host.Cell

/-- The state: R29's tuple, then the parameters it runs under, then the model's own fields. -/
structure State where
  /-- `V[0..15]` (R20). -/
  v : Vector Byte 16
  /-- The index register `I` (R25). -/
  i : Word
  /-- The program counter `PC` (R23, R24). -/
  pc : Word
  /-- The call stack `STACK`, the top last (R26, R8). -/
  stack : List Word
  /-- The delay timer `DT` (R27). -/
  dt : Byte
  /-- The sound timer `ST` (R27). -/
  st : Byte
  /-- The frame buffer `FB` (R28). -/
  fb : FrameBuffer
  /-- The memory `MEM` (R30). -/
  mem : Memory
  /-- The key-wait state `WAIT` (R33). -/
  wait : Option RegIx
  /-- The fault latch `FAULT` (R34). -/
  fault : Option Fault
  /-- The parameters of R5 that are fixed at power-on (log 1). -/
  params : Params
  /-- Model's own: the input `keys` as the latest step sampled it (R91, log 3). -/
  keys : KeyLevels
  /-- Model's own: the input `rnd` as the latest step sampled it (R91, log 3). -/
  rnd : Byte
  /-- Model's own: how many steps have sampled their inputs (log 3). -/
  samples : Nat
  /-- Model's own: the host operations still to come, oldest first (R57, R247, log 4). -/
  host : List HostOp
  /-- Model's own: the events sent to the host, newest last (R228, log 6). -/
  events : List Event
deriving DecidableEq, Repr

/-- A frame buffer with every cell 0 (R38). -/
def FrameBuffer.clear : FrameBuffer := Vector.replicate 32 (Vector.replicate 64 false)

/-- The state after power-on with the default parameters, which includes `reset` (R38, R240). The last
five fields are the model's own: DESIGN CHOICE (log 3, log 4, log 6). -/
def State.reset : State :=
  { v := Vector.replicate 16 0x00
    i := 0x0000
    pc := progBase
    stack := []
    dt := 0x00
    st := 0x00
    fb := FrameBuffer.clear
    mem := []
    wait := none
    fault := none
    params := defaultParams
    keys := Vector.replicate 16 false
    rnd := 0x00
    samples := 0
    host := []
    events := [] }

end Sys2Proof.Machine
end

