-- ==== Sys2Proof/Machine/Ops.lean ====
section
/-! DEFINITION. The shared operations over memory, registers and the rest of the state, raising a fault (R9, R215), and `reset`, the only way out of one (R220, R241). -/

namespace Sys2Proof.Machine

/-! ## Memory (20_memory.md) -/

/-- The byte at a cell key: the listed one, else what the address holds at power-on. -/
def Memory.get : Memory → Nat → Byte
  | [], a => unlisted a
  | (a', b) :: rest, a => if a' = a then b else Memory.get rest a

/-- A cell before a list of higher cells; left out where its byte is what the address reads as anyway. -/
def Memory.cons (a : Nat) (b : Byte) (rest : Memory) : Memory :=
  if b = unlisted a then rest else (a, b) :: rest

/-- The list with the byte at one key replaced, in canonical form. -/
def Memory.set : Memory → Nat → Byte → Memory
  | [], a, b => Memory.cons a b []
  | (a', b') :: rest, a, b =>
    if a < a' then Memory.cons a b ((a', b') :: rest)
    else if a = a' then Memory.cons a b rest
    else (a', b') :: Memory.set rest a b

/-- The canonical form from key `lo` up: keys rising, below 4096, no byte equal to the unlisted one. -/
def Memory.wfFrom : Nat → Memory → Bool
  | _, [] => true
  | lo, (a, b) :: rest =>
    decide (lo ≤ a) && decide (a < memSize) && (b != unlisted a) && Memory.wfFrom (a + 1) rest

/-- The canonical form: equal memories are equal lists. -/
def Memory.wf (m : Memory) : Bool := Memory.wfFrom 0 m

/-- `MemRead(addr, 1)` (R9, R55). -/
def Memory.read (m : Memory) (a : Addr) : Byte := m.get a.toNat

/-- `MemWrite(addr, 1, v)` (R9, R55). -/
def Memory.write (m : Memory) (a : Addr) (b : Byte) : Memory := m.set a.toNat b

/-- Byte k of a run of accesses that starts at `base`: `(base + k) mod 4096` (R56). -/
def addrOf (base k : Nat) : Addr := BitVec.ofNat 12 (base + k)

/-- Bytes written one after the other from `base` up, the first at the lowest address (R53, R56). -/
def Memory.writeRun (m : Memory) (base : Nat) : List Byte → Memory
  | [] => m
  | b :: bs => (m.write (addrOf base 0) b).writeRun (base + 1) bs

/-- The memory that holds `f a` at every address a. -/
@[irreducible] def Memory.ofContents (f : Nat → Byte) : Memory :=
  (List.range memSize).filterMap (fun a => if f a = unlisted a then none else some (a, f a))

/-! ## Reading and writing the state, one operation per field -/

/-- `V[r]` (R8): no register is hardwired (R20). -/
def State.readV (s : State) (r : RegIx) : Byte := s.v[r]

/-- `V[r] <- b` (R8). -/
def State.setV (s : State) (r : RegIx) (b : Byte) : State := { s with v := s.v.set r b }

/-- The whole register file replaced (Fx65, `reset`). -/
def State.setRegs (s : State) (v : Vector Byte 16) : State := { s with v := v }

/-- `I <- w` (R25). -/
def State.setI (s : State) (w : Word) : State := { s with i := w }

/-- `PC <- w`: not masked, not rounded (R24). -/
def State.setPc (s : State) (w : Word) : State := { s with pc := w }

/-- The call stack replaced (R26). -/
def State.setStack (s : State) (k : List Word) : State := { s with stack := k }

/-- `DT <- b` (R27). -/
def State.setDt (s : State) (b : Byte) : State := { s with dt := b }

/-- `ST <- b` (R27). -/
def State.setSt (s : State) (b : Byte) : State := { s with st := b }

/-- The frame buffer replaced (R180). -/
def State.setFb (s : State) (f : FrameBuffer) : State := { s with fb := f }

/-- The memory replaced (R51). -/
def State.setMem (s : State) (m : Memory) : State := { s with mem := m }

/-- `WAIT <- w` (R33). -/
def State.setWait (s : State) (w : Option RegIx) : State := { s with wait := w }

/-- `FAULT <- f` (R34). -/
def State.setFault (s : State) (f : Option Fault) : State := { s with fault := f }

/-- The queue of host operations replaced (log 4). -/
def State.setHost (s : State) (ops : List HostOp) : State := { s with host := ops }

/-- An event sent to the host (R228, log 6). -/
def State.emit (s : State) (e : Event) : State := { s with events := s.events ++ [e] }

/-- The inputs of a step sampled (R91, log 3). -/
def State.setInputs (s : State) (keys : KeyLevels) (rnd : Byte) : State :=
  { s with keys := keys, rnd := rnd, samples := s.samples + 1 }

/-- The byte of memory at an address (R9). -/
def State.readByte (s : State) (a : Addr) : Byte := s.mem.read a

/-- `skip` (R9, R110): a further 2 on the already advanced `PC`, when the test holds. -/
def State.skipIf (s : State) (test : Bool) : State := s.setPc (if test then s.pc + 2 else s.pc)

/-! ## Fetch and advance (40_step.md R92, R93) -/

/-- The word at `PC`, big-endian, `PC` in range (R52, R92). -/
def State.fetchWord (s : State) : Word :=
  wordOfBytes (s.readByte (BitVec.ofNat 12 s.pc.toNat)) (s.readByte (BitVec.ofNat 12 (s.pc.toNat + 1)))

/-- `PC <- PC + 2`, immediately after the fetch (R93). -/
def State.advance (s : State) : State := s.setPc (s.pc + 2)

/-! ## Faults (60_exceptions.md) -/

/-- `raise f` (R9, R215): the fault is latched and the step ends. Nothing is saved, no mode changes and
control goes nowhere (R219). The writes already made stand. -/
def raise (f : Fault) (s : State) : Host.Outcome State Fault Refusal := .next (s.setFault (some f))

/-- `reset` (R241), the only exit from a fault (R220): every register 0, `PC` at 0x200, the stack empty,
the frame buffer clear, the font written again (R243), `WAIT` and `FAULT` none (D15). Memory from 0x050
up and the parameters keep their values (R242), and no event is sent (D21). -/
def hardReset (s : State) : State :=
  { s with
    v := Vector.replicate 16 0x00
    i := 0x0000
    pc := progBase
    stack := []
    dt := 0x00
    st := 0x00
    fb := FrameBuffer.clear
    mem := s.mem.writeRun 0 (fontBytes s.params.font)
    wait := none
    fault := none }

end Sys2Proof.Machine
end

