-- ==== Sys2Proof/Machine/Flags.lean ====
section
/-! DEFINITION. The values the flag register takes and the results they go with (42_alu.md R143). All arithmetic is on unsigned integers, computed exactly and then reduced. -/

namespace Sys2Proof.Machine

/-- The two values of a flag: 0x01 and 0x00 (R136, R137, R182). -/
def flagByte (b : Bool) : Byte := if b then 0x01 else 0x00

/-- `(a + b) mod 256` (R131, R136). -/
def sumByte (a b : Byte) : Byte := BitVec.ofNat 8 (a.toNat + b.toNat)

/-- Carry: 1 when the exact sum is above 255 (R136). -/
def carryFlag (a b : Byte) : Byte := flagByte (decide (255 < a.toNat + b.toNat))

/-- `(a + 256 - b) mod 256` (R137, R139). -/
def diffByte (a b : Byte) : Byte := BitVec.ofNat 8 (a.toNat + 256 - b.toNat)

/-- Not-borrow of `a - b`: 1 when `a >= b`, equality included (R137, R139). -/
def notBorrowFlag (a b : Byte) : Byte := flagByte (decide (b.toNat ≤ a.toNat))

/-- `s >> 1`, bit 7 becomes 0 (R138). -/
def shiftRightByte (s : Byte) : Byte := s >>> 1

/-- The bit that `s >> 1` shifts out: `s AND 0x01` (R138). -/
def lowBitFlag (s : Byte) : Byte := s &&& 0x01

/-- `(s << 1) mod 256`, bit 0 becomes 0 (R140). -/
def shiftLeftByte (s : Byte) : Byte := s <<< 1

/-- The bit that `s << 1` shifts out: `s >> 7` (R140). -/
def highBitFlag (s : Byte) : Byte := s >>> 7

/-- Result to `V[x]`, then the flag to `VF`: 8xy1, 8xy2, 8xy3 (40_step.md R96). With `x = 0xF` the flag remains. -/
def State.resultThenFlag (s : State) (x : RegIx) (result flag : Byte) : State :=
  (s.setV x result).setV VF flag

/-- The flag to `VF`, then the result to `V[x]`: 8xy4 to 8xy7, 8xyE (R96). With `x = 0xF` the result remains. -/
def State.flagThenResult (s : State) (x : RegIx) (flag result : Byte) : State :=
  (s.setV VF flag).setV x result

end Sys2Proof.Machine
end

