-- ==== Sys2Proof/Machine/Operands.lean ====
section
/-! DEFINITION. Operand forms: the shifted register under `QUIRK_SHIFT`, the address and the advance of `I`, the registers of a bulk move, the decimal digits, the key lookup, the sprite position. -/

namespace Sys2Proof.Machine

/-- What 8xy6 and 8xyE shift: `V[y]` under `QUIRK_SHIFT`, else `V[x]` (R31, R138, R140). -/
def State.shiftSource (s : State) (x y : RegIx) : Byte :=
  if s.params.quirkShift then s.readV y else s.readV x

/-- `EA(k) = (I + k) mod 4096` (R9, R56). -/
def State.ea (s : State) (k : Nat) : Addr := addrOf s.i.toNat k

/-- `I` after Fx55 and Fx65: `(I0 + x + 1) mod 65536` under `QUIRK_INCR_I`, else unchanged (R164). -/
def State.indexAfterBulk (s : State) (x : RegIx) : Word :=
  if s.params.quirkIncrI then BitVec.ofNat 16 (s.i.toNat + x.val + 1) else s.i

/-- `V[0]`, `V[1]`, up to `V[x]`, in rising order (R164). -/
def State.regsUpTo (s : State) (x : RegIx) : List Byte := s.v.toList.take (x.val + 1)

/-- The three decimal digits of a byte: hundreds, tens, ones (R163). -/
def bcdDigits (a : Byte) : List Byte :=
  [BitVec.ofNat 8 (a.toNat / 100), BitVec.ofNat 8 (a.toNat / 10 % 10), BitVec.ofNat 8 (a.toNat % 10)]

/-- The level of key `k mod 16`. -/
def keyLevel (keys : KeyLevels) (k : Nat) : Bool := keys[k % 16]'(Nat.mod_lt _ (by decide))

/-- `held(v)` (45_keys_timers.md R196); `none` is where it raises `KeyIndexOutOfRange(v)`. -/
def heldKey (policy : KeyPolicy) (keys : KeyLevels) (v : Byte) : Option Bool :=
  if v.toNat < 16 then some (keyLevel keys v.toNat)
  else
    match policy with
    | .notPressed => some false
    | .mask4 => some (keyLevel keys v.toNat)
    | .fault => none

/-- `held(V[x])` with the inputs of this step (R91, R196). -/
def State.held (s : State) (x : RegIx) : Option Bool := heldKey s.params.keyOor s.keys (s.readV x)

/-- `x0 = V[x] mod 64`: the start column wraps (R182). -/
def State.startColumn (s : State) (x : RegIx) : Nat := (s.readV x).toNat % 64

/-- `y0 = V[y] mod 32`: the start row wraps (R182). -/
def State.startRow (s : State) (y : RegIx) : Nat := (s.readV y).toNat % 32

end Sys2Proof.Machine
end

