-- ==== Sys2Proof/Machine/Alu.lean ====
section
/-! DEFINITION. Register load, arithmetic, logic, shift and random (42_alu.md R130 to R141). Operands are sampled before any write (40_step.md R95, D3, log 9). -/

namespace Sys2Proof.Machine

/-- 6xkk (R130): `V[x] <- kk`. -/
def execLdImm (x : RegIx) (kk : Byte) (s : State) : Host.Outcome State Fault Refusal :=
  .next (s.setV x kk)

/-- 7xkk (R131): `V[x] <- (a + kk) mod 256`; `VF` records no carry. -/
def execAddImm (x : RegIx) (kk : Byte) (s : State) : Host.Outcome State Fault Refusal :=
  .next (s.setV x (sumByte (s.readV x) kk))

/-- 8xy0 (R132): `V[x] <- b`. -/
def execLdReg (x y : RegIx) (s : State) : Host.Outcome State Fault Refusal :=
  .next (s.setV x (s.readV y))

/-- 8xy1 (R133): `V[x] <- a OR b`, then `VF <- 0`. -/
def execOrReg (x y : RegIx) (s : State) : Host.Outcome State Fault Refusal :=
  .next (s.resultThenFlag x (s.readV x ||| s.readV y) 0x00)

/-- 8xy2 (R134): `V[x] <- a AND b`, then `VF <- 0`. -/
def execAndReg (x y : RegIx) (s : State) : Host.Outcome State Fault Refusal :=
  .next (s.resultThenFlag x (s.readV x &&& s.readV y) 0x00)

/-- 8xy3 (R135): `V[x] <- a XOR b`, then `VF <- 0`. -/
def execXorReg (x y : RegIx) (s : State) : Host.Outcome State Fault Refusal :=
  .next (s.resultThenFlag x (s.readV x ^^^ s.readV y) 0x00)

/-- 8xy4 (R136): `VF <- carry`, then `V[x] <- (a + b) mod 256`. -/
def execAddReg (x y : RegIx) (s : State) : Host.Outcome State Fault Refusal :=
  .next (s.flagThenResult x (carryFlag (s.readV x) (s.readV y)) (sumByte (s.readV x) (s.readV y)))

/-- 8xy5 (R137): `VF <- not-borrow of a - b`, then `V[x] <- (a - b) mod 256`. -/
def execSubReg (x y : RegIx) (s : State) : Host.Outcome State Fault Refusal :=
  .next (s.flagThenResult x (notBorrowFlag (s.readV x) (s.readV y)) (diffByte (s.readV x) (s.readV y)))

/-- 8xy6 (R138): `VF <-` bit 0 of the source, then `V[x] <- source >> 1`. -/
def execShr (x y : RegIx) (s : State) : Host.Outcome State Fault Refusal :=
  .next (s.flagThenResult x (lowBitFlag (s.shiftSource x y)) (shiftRightByte (s.shiftSource x y)))

/-- 8xy7 (R139): `VF <- not-borrow of b - a`, then `V[x] <- (b - a) mod 256`. -/
def execSubnReg (x y : RegIx) (s : State) : Host.Outcome State Fault Refusal :=
  .next (s.flagThenResult x (notBorrowFlag (s.readV y) (s.readV x)) (diffByte (s.readV y) (s.readV x)))

/-- 8xyE (R140): `VF <-` bit 7 of the source, then `V[x] <- (source << 1) mod 256`. -/
def execShl (x y : RegIx) (s : State) : Host.Outcome State Fault Refusal :=
  .next (s.flagThenResult x (highBitFlag (s.shiftSource x y)) (shiftLeftByte (s.shiftSource x y)))

/-- Cxkk (R141): `V[x] <- rnd AND kk`, `rnd` the random input of this step (R91, D18, log 3). -/
def execRnd (x : RegIx) (kk : Byte) (s : State) : Host.Outcome State Fault Refusal :=
  .next (s.setV x (s.rnd &&& kk))

end Sys2Proof.Machine
end

