-- ==== Sys2Proof/Machine/Display.lean ====
section
/-! DEFINITION. Frame buffer: clear and sprite draw (44_display.md R180 to R184). -/

namespace Sys2Proof.Machine

/-- 00E0 (R181): every cell 0, and the event `fb_cleared`. -/
def execCls (s : State) : Host.Outcome State Fault Refusal :=
  .next ((s.setFb FrameBuffer.clear).emit .fbCleared)

/-- `FB[r][c]` (R28). -/
def FrameBuffer.cell (f : FrameBuffer) (r : Fin 32) (c : Fin 64) : Bool := f[r][c]

/-- `FB[r][c] <- b` (R28). -/
def FrameBuffer.setCell (f : FrameBuffer) (r : Fin 32) (c : Fin 64) (b : Bool) : FrameBuffer :=
  f.set r (f[r].set c b)

/-- A draw under way: the frame buffer so far, and whether a cell has gone from set to unset. -/
structure Canvas where
  fb : FrameBuffer
  hit : Bool
deriving DecidableEq, Repr

/-- One sprite bit at one position (R182): a position outside the grid is skipped, a bit of 0 leaves its
cell alone, a bit of 1 toggles it, and a cell that was set is a collision. -/
def Canvas.drawBit (p : Canvas) (row col : Nat) (bit : Bool) : Canvas :=
  if h : row < 32 ∧ col < 64 then
    if bit then
      { fb := p.fb.setCell ⟨row, h.1⟩ ⟨col, h.2⟩ (!p.fb.cell ⟨row, h.1⟩ ⟨col, h.2⟩)
        hit := p.hit || p.fb.cell ⟨row, h.1⟩ ⟨col, h.2⟩ }
    else p
  else p

/-- One sprite row: bit 7 at column `x0`, bit 0 at `x0 + 7` (R182, R183; PRESUMED, D12, log 12). -/
def Canvas.drawRow (p : Canvas) (row x0 : Nat) (bits : Byte) : Canvas :=
  (List.range 8).foldl (fun q c => q.drawBit row (x0 + c) (bits.getLsbD (7 - c))) p

/-- The sprite's rows from row `y0` down, its first byte on top (R182, R183). -/
def Canvas.drawRows (p : Canvas) (y0 x0 : Nat) : List Byte → Canvas
  | [] => p
  | bits :: rest => (p.drawRow y0 x0 bits).drawRows (y0 + 1) x0 rest

/-- The `n` sprite bytes at `EA(0)` to `EA(n-1)` (R182). -/
def State.sprite (s : State) (n : Nat) : List Byte := (List.range n).map (fun k => s.readByte (s.ea k))

/-- The draw of Dxyn on the current frame buffer; the coordinates are read before `VF` is written (R182, D11, log 11). -/
def State.draw (s : State) (x y : RegIx) (n : Nat) : Canvas :=
  Canvas.drawRows { fb := s.fb, hit := false } (s.startRow y) (s.startColumn x) (s.sprite n)

/-- Dxyn (R182): the sprite XORed in, `VF` 1 when a cell went from set to unset and 0 otherwise. -/
def execDrw (x y : RegIx) (n : Nat) (s : State) : Host.Outcome State Fault Refusal :=
  .next ((s.setFb (s.draw x y n).fb).setV VF (flagByte (s.draw x y n).hit))

end Sys2Proof.Machine
end

