-- ==== Sys2Proof/Machine/Flow.lean ====
section
/-! DEFINITION. Control transfer (41_flow.md R110 to R118). `PC` is already the address of the following word (40_step.md R93). -/

namespace Sys2Proof.Machine

/-- 00EE (R111): `PC <- pop(STACK)`, stored unchanged; `StackUnderflow` on an empty stack. -/
def execRet (s : State) : Host.Outcome State Fault Refusal :=
  match s.stack.getLast? with
  | some a => .next ((s.setStack s.stack.dropLast).setPc a)
  | none => raise .stackUnderflow s

/-- 1nnn (R112): `PC <- zext_16(nnn)`. -/
def execJp (nnn : Addr) (s : State) : Host.Outcome State Fault Refusal :=
  .next (s.setPc (nnn.setWidth 16))

/-- `STACK_DEPTH` is finite and the stack holds that many entries (R113, D17). -/
def State.stackFull (s : State) : Bool :=
  match s.params.stackDepth with
  | some d => decide (d ≤ s.stack.length)
  | none => false

/-- 2nnn (R113): the advanced `PC` is pushed, then `PC <- zext_16(nnn)`; `StackOverflow`, before any write,
only in a build of finite depth. -/
def execCall (nnn : Addr) (s : State) : Host.Outcome State Fault Refusal :=
  if s.stackFull then raise .stackOverflow s
  else .next ((s.setStack (s.stack ++ [s.pc])).setPc (nnn.setWidth 16))

/-- 3xkk (R114): skip if `V[x] = kk`. -/
def execSeImm (x : RegIx) (kk : Byte) (s : State) : Host.Outcome State Fault Refusal :=
  .next (s.skipIf (s.readV x == kk))

/-- 4xkk (R115): skip if `V[x] != kk`. -/
def execSneImm (x : RegIx) (kk : Byte) (s : State) : Host.Outcome State Fault Refusal :=
  .next (s.skipIf (s.readV x != kk))

/-- 5xy0 (R116): skip if `V[x] = V[y]`. -/
def execSeReg (x y : RegIx) (s : State) : Host.Outcome State Fault Refusal :=
  .next (s.skipIf (s.readV x == s.readV y))

/-- 9xy0 (R117): skip if `V[x] != V[y]`. -/
def execSneReg (x y : RegIx) (s : State) : Host.Outcome State Fault Refusal :=
  .next (s.skipIf (s.readV x != s.readV y))

/-- Bnnn (R118): `PC <- V[0] + nnn`, not masked; the register is always `V[0]`. -/
def execJpV0 (nnn : Addr) (s : State) : Host.Outcome State Fault Refusal :=
  .next (s.setPc (BitVec.ofNat 16 ((s.readV 0).toNat + nnn.toNat)))

end Sys2Proof.Machine
end

