-- ==== Sys2Proof/Machine/Index.lean ====
section
/-! DEFINITION. The index register, BCD, and register save and restore (43_index_memory.md R160 to R167). Addresses are masked, so nothing here can fault (R56). -/

namespace Sys2Proof.Machine

/-- Annn (R160): `I <- zext_16(nnn)`. -/
def execLdI (nnn : Addr) (s : State) : Host.Outcome State Fault Refusal :=
  .next (s.setI (nnn.setWidth 16))

/-- Fx1E (R161): `I <- (I + V[x]) mod 65536`; `VF` is not written. -/
def execAddI (x : RegIx) (s : State) : Host.Outcome State Fault Refusal :=
  .next (s.setI (BitVec.ofNat 16 (s.i.toNat + (s.readV x).toNat)))

/-- Fx29 (R162): `I <- V[x] * 5`, the whole byte. -/
def execLdF (x : RegIx) (s : State) : Host.Outcome State Fault Refusal :=
  .next (s.setI (BitVec.ofNat 16 ((s.readV x).toNat * 5)))

/-- Fx33 (R163): hundreds, tens and ones of `V[x]` at `EA(0)`, `EA(1)`, `EA(2)`; `I` unchanged under
either quirk setting. -/
def execLdB (x : RegIx) (s : State) : Host.Outcome State Fault Refusal :=
  .next (s.setMem (s.mem.writeRun s.i.toNat (bcdDigits (s.readV x))))

/-- Fx55 (R164, R165): `V[k]` to `EA(k)` for k up to x, then the advance of `I` under `QUIRK_INCR_I`. -/
def execStoreRegs (x : RegIx) (s : State) : Host.Outcome State Fault Refusal :=
  .next ((s.setMem (s.mem.writeRun s.i.toNat (s.regsUpTo x))).setI (s.indexAfterBulk x))

/-- The register file after Fx65 has loaded `V[0]` to `V[x]`; registers above `V[x]` keep their values (R166). -/
def State.loadedRegs (s : State) (x : RegIx) : Vector Byte 16 :=
  Vector.ofFn (fun r : RegIx => if r ≤ x then s.readByte (s.ea r.val) else s.readV r)

/-- Fx65 (R164, R166): `V[k]` from `EA(k)` for k up to x, then the advance of `I` under `QUIRK_INCR_I`. -/
def execLoadRegs (x : RegIx) (s : State) : Host.Outcome State Fault Refusal :=
  .next ((s.setRegs (s.loadedRegs x)).setI (s.indexAfterBulk x))

end Sys2Proof.Machine
end

