-- ==== Sys2Proof/Machine/Keys.lean ====
section
/-! DEFINITION. Keypad and timer instructions (45_keys_timers.md R190 to R196). -/

namespace Sys2Proof.Machine

/-- Ex9E (R190): skip if the key numbered by `V[x]` is held. -/
def execSkp (x : RegIx) (s : State) : Host.Outcome State Fault Refusal :=
  match s.held x with
  | some held => .next (s.skipIf held)
  | none => raise (.keyIndexOutOfRange (s.readV x)) s

/-- ExA1 (R191): skip if the key numbered by `V[x]` is not held. -/
def execSknp (x : RegIx) (s : State) : Host.Outcome State Fault Refusal :=
  match s.held x with
  | some held => .next (s.skipIf (!held))
  | none => raise (.keyIndexOutOfRange (s.readV x)) s

/-- Fx07 (R192): `V[x] <- DT`. -/
def execLdVxDt (x : RegIx) (s : State) : Host.Outcome State Fault Refusal :=
  .next (s.setV x s.dt)

/-- Fx0A (R193): `WAIT <- some(x)`, and nothing else; the held keys are not looked at (D26, log 19). -/
def execLdVxK (x : RegIx) (s : State) : Host.Outcome State Fault Refusal :=
  .next (s.setWait (some x))

/-- Fx15 (R194): `DT <- V[x]`. -/
def execLdDtVx (x : RegIx) (s : State) : Host.Outcome State Fault Refusal :=
  .next (s.setDt (s.readV x))

/-- Fx18 (R195): `ST <- V[x]`. -/
def execLdStVx (x : RegIx) (s : State) : Host.Outcome State Fault Refusal :=
  .next (s.setSt (s.readV x))

end Sys2Proof.Machine
end

