-- ==== Sys2Proof/Machine/HostOps.lean ====
section
/-! DEFINITION. The host operations other than `step` (60_exceptions.md R217, R223; 70_reset_and_hazards.md R240 to R245). `hardReset` stands in Ops.lean, beside raising a fault. -/

namespace Sys2Proof.Machine

/-- A timer after one tick: one less, floored at 0 (R223). -/
def countDown (t : Byte) : Byte := if 0 < t.toNat then BitVec.ofNat 8 (t.toNat - 1) else t

/-- `tick` (R223): both timers, independently. It is gated by nothing (R224, D19, log 17). -/
def tick (s : State) : State := (s.setDt (countDown s.dt)).setSt (countDown s.st)

/-- `deliverKey(k)` (R217): while the core waits, the key number goes to the waiting register and the wait
ends; otherwise nothing changes. A k above 15 is refused (D20, log 16). -/
def deliverKey (k : Nat) (s : State) : Host.Outcome State Fault Refusal :=
  if k < 16 then
    match s.wait with
    | some t => .next ((s.setV t (BitVec.ofNat 8 k)).setWait none)
    | none => .next s
  else .refused (.keyNumberOutOfRange k)

/-- `loadProgram(bytes)` (R244): the bytes at 0x200 and up, nothing else touched; an image that does not fit
writes nothing and reports `OutOfBoundsLoad` (R245). Defined in every state (D25, log 18). -/
def loadProgram (bytes : List Byte) (s : State) : State :=
  if progBase.toNat + bytes.length ≤ memSize then
    (s.setMem (s.mem.writeRun progBase.toNat bytes)).emit (.loadResult none)
  else s.emit (.loadResult (some .outOfBoundsLoad))

/-- Power-on (R240): the parameters are fixed, memory from 0x050 up holds `MEM_INIT`, and `reset` is performed. -/
def powerOn (p : Params) (memInit : Nat → Byte) : State :=
  hardReset
    { State.reset with
      params := p
      mem := Memory.ofContents (fun a => if a < fontSize then unlisted a else memInit a) }

end Sys2Proof.Machine
end

