-- ==== Sys2Proof/Machine/Outputs.lean ====
section
/-! DEFINITION. The outputs of the core as functions of its state (60_exceptions.md R225 to R228) and the outcome of a step (40_step.md R97). The events are in `State.events`. -/

namespace Sys2Proof.Machine

/-- Output `sound_active`: `ST > 0` (R225). -/
def soundActive (s : State) : Bool := decide (0 < s.st.toNat)

/-- Output `awaiting_key`: `WAIT != none` (R227). -/
def awaitingKey (s : State) : Bool := s.wait.isSome

/-- Output `fault`: the value of `FAULT` (R34, R228). -/
def faultOutput (s : State) : Option Fault := s.fault

/-- Output `fb`: one cell of the frame buffer (R226). -/
def fbOutput (s : State) (r : Fin 32) (c : Fin 64) : Bool := s.fb.cell r c

/-- The read-only view of the register file (R228). -/
def registerView (s : State) : List Byte := s.v.toList

/-- "A step ends in exactly one of" these (R97). -/
inductive StepOutcome where
  | executed
  | paused
  | faulted (f : Fault)
deriving DecidableEq, Repr

/-- The outcome of a step that took the core from `s` to `t` (R97): a latched fault is reported, by the step
that raised it and by every gated one after it (R90); a waiting core is paused; otherwise the form ran to its end. -/
def stepOutcome (s t : State) : StepOutcome :=
  match t.fault with
  | some f => .faulted f
  | none => if s.wait.isSome then .paused else .executed

end Sys2Proof.Machine
end

