-- ==== Sys2Proof/Machine/Cycle.lean ====
section
/-! DEFINITION. The step procedure (40_step.md R98) and the next host operation of the queue (20_memory.md R57, log 4). -/

namespace Sys2Proof.Machine

/-- `step` is gated: a fault is latched or the core waits for a key (R90). -/
def State.gated (s : State) : Bool := s.fault.isSome || s.wait.isSome

/-- Fetch, advance, decode, execute (R92 to R94, R98), the inputs already sampled. -/
def runInstr (s : State) : Host.Outcome State Fault Refusal :=
  if lastFetch < s.pc.toNat then raise (.fetchOutOfRange s.pc) s
  else
    match decodeWord s.fetchWord with
    | none => raise (.unknownOpcode s.fetchWord) s.advance
    | some i => exec i s.advance

/-- `step(state, keys, rnd)` (R98). A gated step changes nothing (R90). -/
def coreStep (keys : KeyLevels) (rnd : Byte) (s : State) : Host.Outcome State Fault Refusal :=
  if s.gated then .next s else runInstr (s.setInputs keys rnd)

/-- One host operation (R57), each an indivisible transition. -/
def perform (op : HostOp) (s : State) : Host.Outcome State Fault Refusal :=
  match op with
  | .step keys rnd => coreStep keys rnd s
  | .tick => .next (tick s)
  | .deliverKey k => deliverKey k s
  | .loadProgram bytes => .next (loadProgram bytes s)
  | .reset => .next (hardReset s)

/-- The next operation of the queue; while the queue is empty the host issues `step` with free inputs
(R91, D18, log 3, log 4). -/
def performNext (s : State) : Host.Outcome State Fault Refusal :=
  match s.host with
  | op :: rest => perform op (s.setHost rest)
  | [] => coreStep (Config.freeKeys s.samples) (Config.freeRnd s.samples) s

/-- The operation at the head of the queue is a `step`, or the queue is empty. -/
def HostOp.isStep : HostOp → Bool
  | .step _ _ => true
  | .tick | .deliverKey _ | .loadProgram _ | .reset => false

/-- The address at which the next step that is not gated fetches: `PC`, or the entry point where a fetch at
`PC` would be out of range (R58, R92). -/
def State.fetchAddress (s : State) : Word := if lastFetch < s.pc.toNat then progBase else s.pc

/-- The state made ready so that the very next step fetches `op` and runs it (log 22): the word stands at the
fetch address, high byte first (R52), no gate is closed, and no other host operation comes first. -/
def State.placeWord (s : State) (op : Word) : State :=
  { s with
    pc := s.fetchAddress
    mem := s.mem.writeRun s.fetchAddress.toNat [highByte op, lowByte op]
    wait := none
    fault := none
    host := s.host.dropWhile (fun o => !o.isStep) }

end Sys2Proof.Machine
end

