-- ==== Sys2Proof/Machine/Step.lean ====
section
/-! DEFINITION. One transition of the machine, and a word placed where it fetches. -/

namespace Sys2Proof.Machine

/-- One transition: the next host operation of the queue, by default a `step` (R57, R98, log 4). -/
def step (s : State) : Host.Outcome State Fault Refusal := performNext s

/-- The state with an instruction's bits placed where the next step fetches (log 22). -/
def State.withFetchWord (s : State) (nbits w : Nat) : State :=
  s.placeWord (BitVec.ofNat 16 (w % 2 ^ nbits))

end Sys2Proof.Machine
end

