-- ==== Sys2Proof/Safety.lean ====
section
/-! DEFINITION. The terms claims use: what counts as a safe run, the invariant of the machine, what stays unchanged, and where a sprite lands. -/

namespace Sys2Proof.Machine

/-- No fault is latched: nothing the spec calls fatal has happened since the last `reset` (R215). -/
def State.safe (s : State) : Prop := s.fault = none

/-- The next host operation is a `step` with the given inputs: the one the queue names, or, with an empty
queue, one with free inputs (log 3, log 4); `rest` is the queue after it. -/
def State.nextIsStep (s : State) (keys : KeyLevels) (rnd : Byte) (rest : List HostOp) : Prop :=
  s.host = .step keys rnd :: rest ∨
    s.host = [] ∧ rest = [] ∧ keys = Config.freeKeys s.samples ∧ rnd = Config.freeRnd s.samples

/-- What every host operation keeps, whatever the program. -/
structure State.Inv (s : State) : Prop where
  /-- Equal memories are equal lists, and every key is an address (R30, R50). -/
  memCanonical : s.mem.wf = true
  /-- "The largest value PC can ever hold is 0x10FE" (R24). -/
  pcBound : s.pc.toNat ≤ 0x10FE
  /-- A pushed value "is an address at most 0x1000" (R111, R113). -/
  stackBound : ∀ a ∈ s.stack, a.toNat ≤ 0x1000
  /-- `FAULT` and `WAIT` "are never both `some`" (R90). -/
  oneGate : s.fault = none ∨ s.wait = none
  /-- A finite `STACK_DEPTH` is never passed (R113, R214). -/
  depthBound : ∀ d, s.params.stackDepth = some d → s.stack.length ≤ d
  /-- `OutOfBoundsLoad` "is not latched" (R210, R245). -/
  loadFaultNotLatched : s.fault ≠ some .outOfBoundsLoad
  /-- `StackOverflow` "only when `STACK_DEPTH` is finite" (R34, R214). -/
  overflowOnlyIfFinite : s.fault = some .stackOverflow → s.params.stackDepth ≠ none
  /-- `KeyIndexOutOfRange(v)` "only when `KEY_OOR = fault`", and then with v >= 16 (R34, R196). -/
  keyFaultOnlyIfPolicy : ∀ v, s.fault = some (.keyIndexOutOfRange v) →
    s.params.keyOor = .fault ∧ 16 ≤ v.toNat

/-! ## Frames -/

/-- The parts of the state a frame speaks of. -/
inductive Part where
  | regs | index | pc | stack | dt | st | fb | mem | wait | fault | params | inputs | host | events
deriving DecidableEq, Repr

/-- A part reads the same in two states; memory, registers and the frame buffer through the model's reads. -/
def State.samePart (s t : State) : Part → Prop
  | .regs => ∀ r : RegIx, t.readV r = s.readV r
  | .index => t.i = s.i
  | .pc => t.pc = s.pc
  | .stack => t.stack = s.stack
  | .dt => t.dt = s.dt
  | .st => t.st = s.st
  | .fb => ∀ (r : Fin 32) (c : Fin 64), t.fb.cell r c = s.fb.cell r c
  | .mem => ∀ a : Addr, t.readByte a = s.readByte a
  | .wait => t.wait = s.wait
  | .fault => t.fault = s.fault
  | .params => t.params = s.params
  | .inputs => t.keys = s.keys ∧ t.rnd = s.rnd ∧ t.samples = s.samples
  | .host => t.host = s.host
  | .events => t.events = s.events

/-- Every part of the state but the named ones is unchanged. -/
def State.unchangedBut (s t : State) (changed : List Part) : Prop :=
  ∀ p : Part, p ∉ changed → s.samePart t p

/-- Every register but the named ones is unchanged. -/
def State.regsUnchangedBut (s t : State) (changed : List RegIx) : Prop :=
  ∀ r : RegIx, r ∉ changed → t.readV r = s.readV r

/-- The addresses `EA(0)` to `EA(n-1)` of an access through `I` (R56). -/
def State.eaRange (s : State) (n : Nat) : List Addr := (List.range n).map s.ea

/-- Every byte of memory but those at the named addresses is unchanged. -/
def State.memUnchangedOutside (s t : State) (stored : List Addr) : Prop :=
  ∀ a : Addr, a ∉ stored → t.readByte a = s.readByte a

/-! ## Where a sprite lands (R182, R183) -/

/-- The sprite bit that Dxyn XORs into cell (r, c): byte k of the sprite covers row `y0 + k`, its bit `7 - j`
column `x0 + j`, and positions past the edges of the grid get none. -/
def State.spriteBit (s : State) (x y : RegIx) (n : Nat) (r : Fin 32) (c : Fin 64) : Bool :=
  let x0 := (s.readV x).toNat % 64
  let y0 := (s.readV y).toNat % 32
  decide (y0 ≤ r.val ∧ r.val < y0 + n ∧ x0 ≤ c.val ∧ c.val < x0 + 8) &&
    (s.readByte (s.ea (r.val - y0))).getLsbD (7 - (c.val - x0))

end Sys2Proof.Machine
end

