-- ==== Sys2Proof/Certificates/Slice0/Obligations.lean ====
section
/-! DEFINITION. The statements for the provers. In every statement about `exec`, `PC` is already the address of the following word (40_step.md R93), so a form that does not mention `PC` leaves it as it is. In a docstring, D<n> names a decision that 92_eei_decisions.md marks as the spec's own choice, and log <n> the model's entry about it: what they mark is a choice, not a rule of the source. The queue of host operations (log 4), the sampled inputs (log 3), the parameters (log 1) and the events (log 6) are fields of the model's own choosing. -/

open Sys2Proof Sys2Proof.Machine

/-! ## Encoding (30_encoding.md) -/

/-- Every well-formed instruction, with every operand at every value its field admits, decodes from its own
word, and from its two bytes with anything after them. -/
def Obligations.DecodeOfEncodeIsIdentity : Prop :=
  ∀ (i : Instr) (rest : List Byte), i.wellFormed = true →
    decodeWord (encode i) = some i ∧ decode (encodeBytes i ++ rest) = .ok (i, rest)

/-- A word has one meaning: what a word decodes to is well formed and encodes back to that word. -/
def Obligations.EncodeOfDecodeIsIdentity : Prop :=
  ∀ (op : Word) (i : Instr), decodeWord op = some i → i.wellFormed = true ∧ encode i = op

/-- The decoder, which dispatches on nibbles, agrees with the (mask, match) table: row k selects a word
exactly when the word decodes to the form of row k. So no two rows select one word, and a word that no row
selects is illegal (the disjointness is the spec's own derivation in R73). -/
def Obligations.WordSelectsFormExactlyWhenItsRowMatches : Prop :=
  ∀ (op : Word) (k : Nat) (r : OpcodeRow), opcodeRows[k]? = some r →
    (r.selects op = true ↔ ∃ i, decodeWord op = some i ∧ i.rowIndex = k)

/-- The illegal words are exactly the listed ones, major by major (rests on D1 and D2, log 20). -/
def Obligations.IllegalWordsAreExactlyTheListedOnes : Prop :=
  ∀ op : Word, decodeWord op = none ↔
    (op.toNat / 0x1000 = 0x0 ∧ op.toNat ≠ 0x00E0 ∧ op.toNat ≠ 0x00EE) ∨
    (op.toNat / 0x1000 = 0x5 ∧ op.toNat % 0x10 ≠ 0) ∨
    (op.toNat / 0x1000 = 0x8 ∧ op.toNat % 0x10 ∈ [0x8, 0x9, 0xA, 0xB, 0xC, 0xD, 0xF]) ∨
    (op.toNat / 0x1000 = 0x9 ∧ op.toNat % 0x10 ≠ 0) ∨
    (op.toNat / 0x1000 = 0xE ∧ op.toNat % 0x100 ∉ [0x9E, 0xA1]) ∨
    (op.toNat / 0x1000 = 0xF ∧
      op.toNat % 0x100 ∉ [0x07, 0x0A, 0x15, 0x18, 0x1E, 0x29, 0x33, 0x55, 0x65])

/-- A few words written out from the table decode to what they stand for. -/
def Obligations.SampleWordsDecodeToTheirForms : Prop :=
  decodeWord 0x00E0 = some .cls ∧ decodeWord 0x2ABC = some (.call 0xABC) ∧
  decodeWord 0x3F00 = some (.seImm 0xF 0x00) ∧ decodeWord 0x5AB0 = some (.seReg 0xA 0xB) ∧
  decodeWord 0x8FFE = some (.shl 0xF 0xF) ∧ decodeWord 0xD12F = some (.drw 0x1 0x2 0xF) ∧
  decodeWord 0xE0A1 = some (.sknp 0x0) ∧ decodeWord 0xFF65 = some (.loadRegs 0xF) ∧
  decodeWord 0x0000 = none ∧ decodeWord 0x5AB1 = none ∧ decodeWord 0x8AB9 = none

/-! ## The step procedure (40_step.md) -/

/-- The fetched word is big-endian: the byte at `PC` is the high one. -/
def Obligations.FetchIsBigEndian : Prop :=
  ∀ s : State, s.pc.toNat ≤ 0xFFE →
    ∀ a b : Addr, a.toNat = s.pc.toNat → b.toNat = s.pc.toNat + 1 →
      s.fetchWord.toNat = (s.readByte a).toNat * 256 + (s.readByte b).toNat

/-- A step that is not gated and whose fetch is in range runs the instruction that the two bytes at `PC`
decode to, on the state with the inputs sampled, the operation taken off the host's queue, and `PC` advanced. -/
def Obligations.StepRunsTheDecodedInstruction : Prop :=
  ∀ (s : State) (keys : KeyLevels) (rnd : Byte) (rest : List HostOp) (i : Instr),
    s.nextIsStep keys rnd rest → s.fault = none → s.wait = none → s.pc.toNat ≤ 0xFFE →
    decode [s.readByte (BitVec.ofNat 12 s.pc.toNat), s.readByte (BitVec.ofNat 12 (s.pc.toNat + 1))] =
      .ok (i, []) →
    step s = exec i (((s.setHost rest).setInputs keys rnd).setPc (s.pc + 2))

/-- A step with a latched fault or during a key wait changes nothing but the host's queue, and its outcome is
`faulted(f)` or `paused`. The fault gate is the spec's own choice (D7, log 5). -/
def Obligations.GatedStepChangesNothing : Prop :=
  ∀ (s : State) (keys : KeyLevels) (rnd : Byte) (rest : List HostOp),
    s.nextIsStep keys rnd rest → (s.fault ≠ none ∨ s.wait ≠ none) →
    step s = .next (s.setHost rest) ∧
    (∀ f, s.fault = some f → stepOutcome s (s.setHost rest) = .faulted f) ∧
    (s.fault = none → stepOutcome s (s.setHost rest) = .paused)

/-- A fetch above 0xFFE latches `FetchOutOfRange(PC)` and changes nothing else; `PC` is not advanced
(D5, log 13; the latch is D7, log 5). -/
def Obligations.FetchOutOfRangeIsLatched : Prop :=
  ∀ (s : State) (keys : KeyLevels) (rnd : Byte) (rest : List HostOp),
    s.nextIsStep keys rnd rest → s.fault = none → s.wait = none → 0xFFE < s.pc.toNat →
    ∃ t, step s = .next t ∧ t.fault = some (.fetchOutOfRange s.pc) ∧ t.host = rest ∧
      stepOutcome s t = .faulted (.fetchOutOfRange s.pc) ∧
      s.unchangedBut t [.fault, .inputs, .host]

/-- An illegal word latches `UnknownOpcode(op)` with `PC` advanced past it and nothing else changed
(D6, D7, log 13, log 5). -/
def Obligations.UnknownOpcodeIsLatched : Prop :=
  ∀ (s : State) (keys : KeyLevels) (rnd : Byte) (rest : List HostOp) (op : Word),
    s.nextIsStep keys rnd rest → s.fault = none → s.wait = none → s.pc.toNat ≤ 0xFFE →
    decode [s.readByte (BitVec.ofNat 12 s.pc.toNat), s.readByte (BitVec.ofNat 12 (s.pc.toNat + 1))] =
      .error (.unknownOpcode op) →
    ∃ t, step s = .next t ∧ t.fault = some (.unknownOpcode op) ∧ t.pc = s.pc + 2 ∧ t.host = rest ∧
      stepOutcome s t = .faulted (.unknownOpcode op) ∧
      s.unchangedBut t [.pc, .fault, .inputs, .host]

/-- A latched fault stays, and with it the registers, `I`, `PC`, the stack and the frame buffer, under every
host operation but `reset`, and `reset` clears it (D7, D15, log 5, log 15). -/
def Obligations.FaultLatchHoldsUntilReset : Prop :=
  ∀ (s t : State) (f : Fault), s.Inv → s.fault = some f → step s = .next t →
    (s.host.head? = some .reset → t.fault = none) ∧
    (s.host.head? ≠ some .reset →
      t.fault = some f ∧ s.unchangedBut t [.dt, .st, .mem, .host, .events])

/-- No host operation stops the machine, but for `deliverKey(k)` with k above 15, which is refused (D20, log 16).
That a step which faults answers a next state, with the fault latched, is the spec's own choice too (D7, log 5). -/
def Obligations.OnlyAnOutOfRangeKeyIsRefused : Prop :=
  ∀ s : State,
    (∃ k rest, s.host = .deliverKey k :: rest ∧ 16 ≤ k ∧ step s = .refused (.keyNumberOutOfRange k)) ∨
    ((∀ k rest, s.host = .deliverKey k :: rest → k < 16) ∧ ∃ t, step s = .next t)

/-- A step touches `DT` only through Fx15 and `ST` only through Fx18, and it looks at its inputs (log 3) only through
Ex9E, ExA1 (the keys) and Cxkk (the random byte): with other inputs it does the same. -/
def Obligations.StepsTouchTimersAndInputsOnlyThroughTheirForms : Prop :=
  ∀ (s t : State) (keys keys' : KeyLevels) (rnd rnd' : Byte), coreStep keys rnd s = .next t →
    (t.dt ≠ s.dt → ∃ x, decodeWord s.fetchWord = some (.ldDtVx x)) ∧
    (t.st ≠ s.st → ∃ x, decodeWord s.fetchWord = some (.ldStVx x)) ∧
    ((∀ x, decodeWord s.fetchWord ≠ some (.skp x)) → (∀ x, decodeWord s.fetchWord ≠ some (.sknp x)) →
      ∃ u, coreStep keys' rnd s = .next u ∧ { u with keys := t.keys } = t) ∧
    ((∀ x kk, decodeWord s.fetchWord ≠ some (.rnd x kk)) →
      ∃ u, coreStep keys rnd' s = .next u ∧ { u with rnd := t.rnd } = t)

/-! ## Whole-machine rules -/

/-- The invariant (Safety.lean, `State.Inv`) is kept by every host operation, from every state that has it. Its
clauses about the latch and the finite stack rest on D7, D9 and D17 (log 5, log 2). -/
def Obligations.EveryOperationKeepsTheInvariant : Prop :=
  ∀ s t : State, s.Inv → step s = .next t → t.Inv

/-- The state after power-on with the default parameters (log 2) has the invariant. -/
def Obligations.ResetStateHasTheInvariant : Prop := State.reset.Inv

/-- The parameters, which the model holds in the state (log 1), never change: not by an instruction, not by a host
operation. -/
def Obligations.ParametersNeverChange : Prop :=
  ∀ s t : State, step s = .next t → t.params = s.params

/-- The frame buffer changes only under `reset` and 00E0, which clear it, and Dxyn. -/
def Obligations.OnlyResetClearAndDrawChangeTheFrameBuffer : Prop :=
  ∀ s t : State, step s = .next t → (∃ r c, t.fb.cell r c ≠ s.fb.cell r c) →
    ((s.host.head? = some .reset ∨ decodeWord s.fetchWord = some .cls) ∧
      ∀ r c, t.fb.cell r c = false) ∨
    ∃ x y n, decodeWord s.fetchWord = some (.drw x y n)

/-- The call stack changes only under `reset`, 2nnn (one push) and 00EE (one pop). -/
def Obligations.OnlyResetCallAndReturnChangeTheStack : Prop :=
  ∀ s t : State, step s = .next t → t.stack ≠ s.stack →
    (s.host.head? = some .reset ∧ t.stack = []) ∨
    (∃ nnn, decodeWord s.fetchWord = some (.call nnn) ∧ t.stack = s.stack ++ [s.pc + 2]) ∨
    (decodeWord s.fetchWord = some .ret ∧ t.stack = s.stack.dropLast)

/-- A byte of memory changes only under Fx33 and Fx55, at an address of theirs, under `loadProgram`, in its
window, and under `reset`, in the font. -/
def Obligations.OnlyStoresLoadsAndResetChangeMemory : Prop :=
  ∀ (s t : State) (a : Addr), s.mem.wf = true → step s = .next t → t.readByte a ≠ s.readByte a →
    (∃ x, decodeWord s.fetchWord = some (.ldB x) ∧ a ∈ s.eaRange 3) ∨
    (∃ x, decodeWord s.fetchWord = some (.storeRegs x) ∧ a ∈ s.eaRange (x.val + 1)) ∨
    (∃ bytes, s.host.head? = some (.loadProgram bytes) ∧ 0x200 ≤ a.toNat ∧
      a.toNat < 0x200 + bytes.length) ∨
    (s.host.head? = some .reset ∧ a.toNat < 0x50)

/-- `VF` changes only under the forms that write it as a side effect (8xy1 to 8xy7, 8xyE, Dxyn), under a form
whose destination it is, under a delivered key whose target it is, and under `reset`. -/
def Obligations.OnlyFlagFormsAndDestinationsChangeVF : Prop :=
  ∀ s t : State, step s = .next t → t.readV VF ≠ s.readV VF →
    (∃ i, decodeWord s.fetchWord = some i ∧
      ((∃ x y, i = .orReg x y ∨ i = .andReg x y ∨ i = .xorReg x y ∨ i = .addReg x y ∨ i = .subReg x y ∨
        i = .shr x y ∨ i = .subnReg x y ∨ i = .shl x y) ∨
       (∃ x y n, i = .drw x y n) ∨
       (∃ kk, i = .ldImm VF kk ∨ i = .addImm VF kk ∨ i = .rnd VF kk) ∨
       (∃ y, i = .ldReg VF y) ∨ i = .ldVxDt VF ∨ i = .loadRegs VF)) ∨
    (∃ k, s.host.head? = some (.deliverKey k) ∧ s.wait = some VF) ∨
    s.host.head? = some .reset

/-! ## Control transfer (41_flow.md) -/

/-- 00EE on a stack that is not empty: `PC` takes the top entry unchanged and the stack loses it; nothing else
changes. On an empty stack it latches `StackUnderflow` and changes nothing else (D4, log 13; the latch is D7,
log 5). -/
def Obligations.ReturnPopsTheTopOrLatchesUnderflow : Prop :=
  (∀ (s : State) (below : List Word) (top : Word), s.stack = below ++ [top] →
    ∃ t, exec .ret s = .next t ∧ t.pc = top ∧ t.stack = below ∧ s.unchangedBut t [.pc, .stack]) ∧
  (∀ s : State, s.stack = [] →
    ∃ t, exec .ret s = .next t ∧ t.fault = some .stackUnderflow ∧ s.unchangedBut t [.fault])

/-- 1nnn puts the zero-extended address into `PC` and changes nothing else. -/
def Obligations.JumpSetsPc : Prop :=
  ∀ (nnn : Addr) (s : State), ∃ t, exec (.jp nnn) s = .next t ∧ t.pc.toNat = nnn.toNat ∧
    s.unchangedBut t [.pc]

/-- 2nnn pushes the advanced `PC` and jumps, where the depth is unbounded or not yet reached. On a full stack of
finite depth it latches `StackOverflow` before any write (D17, log 2; the latch is D7, log 5). -/
def Obligations.CallPushesTheReturnAddressOrLatchesOverflow : Prop :=
  (∀ (nnn : Addr) (s : State), (∀ d, s.params.stackDepth = some d → s.stack.length < d) →
    ∃ t, exec (.call nnn) s = .next t ∧ t.pc.toNat = nnn.toNat ∧ t.stack = s.stack ++ [s.pc] ∧
      s.unchangedBut t [.pc, .stack]) ∧
  (∀ (nnn : Addr) (s : State) (d : Nat), s.params.stackDepth = some d → d ≤ s.stack.length →
    ∃ t, exec (.call nnn) s = .next t ∧ t.fault = some .stackOverflow ∧ s.unchangedBut t [.fault])

/-- A call that does not overflow and then a return, from whatever state the subroutine reaches with the stack as
it found it, come back to the word after the call with the caller's stack. -/
def Obligations.ReturnUndoesCall : Prop :=
  ∀ (nnn : Addr) (s t u w : State), (∀ d, s.params.stackDepth = some d → s.stack.length < d) →
    exec (.call nnn) s = .next t → u.stack = t.stack → exec .ret u = .next w →
    w.pc = s.pc ∧ w.stack = s.stack

/-- The four register skips: 2 is added to the advanced `PC` exactly when the test holds, and nothing else
changes. -/
def Obligations.RegisterSkipsTestAndSkip : Prop :=
  (∀ (x : RegIx) (kk : Byte) (s : State), ∃ t, exec (.seImm x kk) s = .next t ∧
    t.pc = (if s.readV x = kk then s.pc + 2 else s.pc) ∧ s.unchangedBut t [.pc]) ∧
  (∀ (x : RegIx) (kk : Byte) (s : State), ∃ t, exec (.sneImm x kk) s = .next t ∧
    t.pc = (if s.readV x = kk then s.pc else s.pc + 2) ∧ s.unchangedBut t [.pc]) ∧
  (∀ (x y : RegIx) (s : State), ∃ t, exec (.seReg x y) s = .next t ∧
    t.pc = (if s.readV x = s.readV y then s.pc + 2 else s.pc) ∧ s.unchangedBut t [.pc]) ∧
  (∀ (x y : RegIx) (s : State), ∃ t, exec (.sneReg x y) s = .next t ∧
    t.pc = (if s.readV x = s.readV y then s.pc else s.pc + 2) ∧ s.unchangedBut t [.pc])

/-- Bnnn puts the unmasked sum of `V[0]` and the address into `PC` and changes nothing else. -/
def Obligations.IndexedJumpAddsV0 : Prop :=
  ∀ (nnn : Addr) (s : State), ∃ t, exec (.jpV0 nnn) s = .next t ∧
    t.pc.toNat = (s.readV 0).toNat + nnn.toNat ∧ t.pc.toNat ≤ 0x10FE ∧ s.unchangedBut t [.pc]

/-! ## Register load, arithmetic, logic, shift, random (42_alu.md) -/

/-- 6xkk: the constant, and no other register and no other part of the state. -/
def Obligations.LoadImmediateWritesTheConstant : Prop :=
  ∀ (x : RegIx) (kk : Byte) (s : State), ∃ t, exec (.ldImm x kk) s = .next t ∧ t.readV x = kk ∧
    s.regsUnchangedBut t [x] ∧ s.unchangedBut t [.regs]

/-- 7xkk: the sum modulo 256; `VF` is not written unless it is the destination. -/
def Obligations.AddImmediateRecordsNoCarry : Prop :=
  ∀ (x : RegIx) (kk : Byte) (s : State), ∃ t, exec (.addImm x kk) s = .next t ∧
    (t.readV x).toNat = ((s.readV x).toNat + kk.toNat) % 256 ∧
    s.regsUnchangedBut t [x] ∧ s.unchangedBut t [.regs]

/-- 8xy0: a copy. -/
def Obligations.CopyRegisterWritesTheSource : Prop :=
  ∀ (x y : RegIx) (s : State), ∃ t, exec (.ldReg x y) s = .next t ∧ t.readV x = s.readV y ∧
    s.regsUnchangedBut t [x] ∧ s.unchangedBut t [.regs]

/-- 8xy1, 8xy2, 8xy3: the bitwise result, and `VF` 0 whatever `x` and `y` are. -/
def Obligations.LogicFormsWriteTheResultThenClearVF : Prop :=
  ∀ (x y : RegIx) (s : State),
    (∃ t, exec (.orReg x y) s = .next t ∧ (x ≠ VF → t.readV x = s.readV x ||| s.readV y) ∧
      t.readV VF = 0x00 ∧ s.regsUnchangedBut t [x, VF] ∧ s.unchangedBut t [.regs]) ∧
    (∃ t, exec (.andReg x y) s = .next t ∧ (x ≠ VF → t.readV x = s.readV x &&& s.readV y) ∧
      t.readV VF = 0x00 ∧ s.regsUnchangedBut t [x, VF] ∧ s.unchangedBut t [.regs]) ∧
    (∃ t, exec (.xorReg x y) s = .next t ∧ (x ≠ VF → t.readV x = s.readV x ^^^ s.readV y) ∧
      t.readV VF = 0x00 ∧ s.regsUnchangedBut t [x, VF] ∧ s.unchangedBut t [.regs])

/-- 8xy4: the sum modulo 256, and the carry in `VF` unless `VF` is the destination. -/
def Obligations.AddWritesTheSumAndCarry : Prop :=
  ∀ (x y : RegIx) (s : State), ∃ t, exec (.addReg x y) s = .next t ∧
    (t.readV x).toNat = ((s.readV x).toNat + (s.readV y).toNat) % 256 ∧
    (x ≠ VF → t.readV VF = if (s.readV x).toNat + (s.readV y).toNat > 255 then 0x01 else 0x00) ∧
    s.regsUnchangedBut t [x, VF] ∧ s.unchangedBut t [.regs]

/-- 8xy5: the difference modulo 256, and not-borrow in `VF` unless `VF` is the destination. With `x` or `y`
0xF the operands are the values before any write (D3, log 9). -/
def Obligations.SubtractWritesTheDifferenceAndNotBorrow : Prop :=
  ∀ (x y : RegIx) (s : State), ∃ t, exec (.subReg x y) s = .next t ∧
    (t.readV x).toNat =
      (if (s.readV y).toNat ≤ (s.readV x).toNat then (s.readV x).toNat - (s.readV y).toNat
       else (s.readV x).toNat + 256 - (s.readV y).toNat) ∧
    (x ≠ VF → t.readV VF = if (s.readV y).toNat ≤ (s.readV x).toNat then 0x01 else 0x00) ∧
    s.regsUnchangedBut t [x, VF] ∧ s.unchangedBut t [.regs]

/-- 8xy7: the reverse difference modulo 256, and its not-borrow in `VF` unless `VF` is the destination. With `x`
or `y` 0xF the operands are the values before any write (D3, log 9). -/
def Obligations.ReverseSubtractWritesTheDifferenceAndNotBorrow : Prop :=
  ∀ (x y : RegIx) (s : State), ∃ t, exec (.subnReg x y) s = .next t ∧
    (t.readV x).toNat =
      (if (s.readV x).toNat ≤ (s.readV y).toNat then (s.readV y).toNat - (s.readV x).toNat
       else (s.readV y).toNat + 256 - (s.readV x).toNat) ∧
    (x ≠ VF → t.readV VF = if (s.readV x).toNat ≤ (s.readV y).toNat then 0x01 else 0x00) ∧
    s.regsUnchangedBut t [x, VF] ∧ s.unchangedBut t [.regs]

/-- 8xy6 and 8xyE, under either setting of `QUIRK_SHIFT`: the source (`V[y]` with the quirk, `V[x]` without)
halved, or doubled modulo 256, and the bit shifted out in `VF` unless `VF` is the destination. With `x = 0xF`,
and with the quirk and `y = 0xF`, the operand is the value before any write (D3, log 9). -/
def Obligations.ShiftsFollowTheQuirkStrap : Prop :=
  ∀ (x y : RegIx) (s : State) (a : Byte),
    a = (if s.params.quirkShift = true then s.readV y else s.readV x) →
    (∃ t, exec (.shr x y) s = .next t ∧ (t.readV x).toNat = a.toNat / 2 ∧
      (x ≠ VF → (t.readV VF).toNat = a.toNat % 2) ∧
      s.regsUnchangedBut t [x, VF] ∧ s.unchangedBut t [.regs]) ∧
    (∃ t, exec (.shl x y) s = .next t ∧ (t.readV x).toNat = 2 * a.toNat % 256 ∧
      (x ≠ VF → (t.readV VF).toNat = a.toNat / 128) ∧
      s.regsUnchangedBut t [x, VF] ∧ s.unchangedBut t [.regs])

/-- Cxkk: the step's random byte ANDed with the constant, so a bit that `kk` has 0 is 0; every random byte is
admitted, since the sampled input is any byte (log 3). -/
def Obligations.RandomByteIsMasked : Prop :=
  ∀ (x : RegIx) (kk : Byte) (s : State), ∃ t, exec (.rnd x kk) s = .next t ∧
    t.readV x = s.rnd &&& kk ∧ t.readV x &&& ~~~kk = 0x00 ∧
    s.regsUnchangedBut t [x] ∧ s.unchangedBut t [.regs]

/-! ## Index register, BCD, save and restore (43_index_memory.md) -/

/-- Annn: the zero-extended address. -/
def Obligations.LoadIndexWritesTheAddress : Prop :=
  ∀ (nnn : Addr) (s : State), ∃ t, exec (.ldI nnn) s = .next t ∧ t.i.toNat = nnn.toNat ∧
    s.unchangedBut t [.index]

/-- Fx1E: the sum modulo 65536, `VF` unchanged (the reduction is D8, log 10). -/
def Obligations.AddToIndexWrapsAt16Bits : Prop :=
  ∀ (x : RegIx) (s : State), ∃ t, exec (.addI x) s = .next t ∧
    t.i.toNat = (s.i.toNat + (s.readV x).toNat) % 65536 ∧ s.unchangedBut t [.index]

/-- Fx29: five times the whole byte. -/
def Obligations.FontAddressIsFiveTimesTheByte : Prop :=
  ∀ (x : RegIx) (s : State), ∃ t, exec (.ldF x) s = .next t ∧ t.i.toNat = (s.readV x).toNat * 5 ∧
    s.unchangedBut t [.index]

/-- Fx33: the three decimal digits at `EA(0)`, `EA(1)`, `EA(2)`, which together give the register's value back;
no other byte of memory and nothing else changes, `I` included (addresses wrap by D8, log 10). -/
def Obligations.BcdStoresThreeDigits : Prop :=
  ∀ (x : RegIx) (s : State), s.mem.wf = true → ∃ t, exec (.ldB x) s = .next t ∧
    (t.readByte (s.ea 0)).toNat = (s.readV x).toNat / 100 ∧
    (t.readByte (s.ea 1)).toNat = (s.readV x).toNat / 10 % 10 ∧
    (t.readByte (s.ea 2)).toNat = (s.readV x).toNat % 10 ∧
    (s.readV x).toNat = 100 * (t.readByte (s.ea 0)).toNat + 10 * (t.readByte (s.ea 1)).toNat +
      (t.readByte (s.ea 2)).toNat ∧
    s.memUnchangedOutside t (s.eaRange 3) ∧ s.unchangedBut t [.mem]

/-- Fx55: `V[r]` at `EA(r)` for every r up to x, no other byte of memory, and `I` advanced by x + 1 modulo 65536
under `QUIRK_INCR_I` only (addresses wrap by D8, log 10). -/
def Obligations.StoreRegistersWritesTheRun : Prop :=
  ∀ (x : RegIx) (s : State), s.mem.wf = true → ∃ t, exec (.storeRegs x) s = .next t ∧
    (∀ r : RegIx, r ≤ x → t.readByte (s.ea r.val) = s.readV r) ∧
    s.memUnchangedOutside t (s.eaRange (x.val + 1)) ∧
    t.i.toNat =
      (if s.params.quirkIncrI = true then (s.i.toNat + x.val + 1) % 65536 else s.i.toNat) ∧
    s.unchangedBut t [.mem, .index]

/-- Fx65: `V[r]` from `EA(r)` for every r up to x, the registers above unchanged, and `I` as for Fx55
(addresses wrap by D8, log 10). -/
def Obligations.LoadRegistersReadsTheRun : Prop :=
  ∀ (x : RegIx) (s : State), ∃ t, exec (.loadRegs x) s = .next t ∧
    (∀ r : RegIx, r ≤ x → t.readV r = s.readByte (s.ea r.val)) ∧
    (∀ r : RegIx, x < r → t.readV r = s.readV r) ∧
    t.i.toNat =
      (if s.params.quirkIncrI = true then (s.i.toNat + x.val + 1) % 65536 else s.i.toNat) ∧
    s.unchangedBut t [.regs, .index]

/-- The round trip: a load of `V[0]` to `V[x]` from the same `I` in the memory that a store left gives back the
stored registers, whatever the registers were set to in between. -/
def Obligations.LoadAfterStoreRestoresTheRegisters : Prop :=
  ∀ (x : RegIx) (s t u w : State), s.mem.wf = true → exec (.storeRegs x) s = .next t →
    u.mem = t.mem → u.i = s.i → exec (.loadRegs x) u = .next w →
    ∀ r : RegIx, r ≤ x → w.readV r = s.readV r

/-- A store over the instruction stream is seen by the next fetch: registers k and k + 1 stored at `PC` and
`PC + 1` are the word fetched there. -/
def Obligations.StoredBytesAreFetched : Prop :=
  ∀ (x k k' : RegIx) (s t : State), s.mem.wf = true → exec (.storeRegs x) s = .next t →
    k' ≤ x → k'.val = k.val + 1 → s.pc.toNat ≤ 0xFFE → (s.ea k.val).toNat = s.pc.toNat →
    t.fetchWord.toNat = (s.readV k).toNat * 256 + (s.readV k').toNat

/-! ## Frame buffer (44_display.md) -/

/-- 00E0: every cell 0, the event `fb_cleared` sent (D21, log 6), nothing else. -/
def Obligations.ClearZeroesEveryCell : Prop :=
  ∀ s : State, ∃ t, exec .cls s = .next t ∧ (∀ r c, t.fb.cell r c = false) ∧
    t.events = s.events ++ [.fbCleared] ∧ s.unchangedBut t [.fb, .events]

/-- Dxyn: each cell is XORed with the sprite bit that lands on it (`State.spriteBit`), `VF` is 1 exactly when some
landed bit fell on a set cell, no other register and nothing else changes. It holds for `n = 0` (D10), for
`x` or `y` 0xF (D11), and rests on the geometry of D12 and on addresses that wrap by D8 (log 11, log 12, log 10). -/
def Obligations.DrawXorsTheSpriteAndReportsCollision : Prop :=
  ∀ (x y : RegIx) (n : Nat) (s : State), ∃ t, exec (.drw x y n) s = .next t ∧
    (∀ r c, t.fb.cell r c = (s.fb.cell r c ^^ s.spriteBit x y n r c)) ∧
    ((∃ r c, s.spriteBit x y n r c = true ∧ s.fb.cell r c = true) → t.readV VF = 0x01) ∧
    ((∀ r c, s.spriteBit x y n r c = true → s.fb.cell r c = false) → t.readV VF = 0x00) ∧
    s.regsUnchangedBut t [VF] ∧ s.unchangedBut t [.regs, .fb]

/-- The double draw: with the coordinates unchanged in between, a second draw brings every cell back, and its `VF`
is 1 exactly when the first draw turned some cell from 0 to 1. As for the single draw, `n = 0` is D10, `x` or `y`
0xF is D11 (log 11), the geometry D12 (log 12), and the wrap of the sprite's addresses D8 (log 10). -/
def Obligations.DoubleDrawRestoresTheFrameBuffer : Prop :=
  ∀ (x y : RegIx) (n : Nat) (s t u : State), exec (.drw x y n) s = .next t →
    t.readV x = s.readV x → t.readV y = s.readV y → exec (.drw x y n) t = .next u →
    (∀ r c, u.fb.cell r c = s.fb.cell r c) ∧
    (u.readV VF = 0x01 ↔ ∃ r c, s.fb.cell r c = false ∧ t.fb.cell r c = true) ∧
    (u.readV VF = 0x00 ↔ ¬ ∃ r c, s.fb.cell r c = false ∧ t.fb.cell r c = true)

/-! ## Keys and timers (45_keys_timers.md) -/

/-- Ex9E and ExA1 with a key number up to 15: the skip follows the level of that key in this step's inputs, and
nothing but `PC` changes. -/
def Obligations.KeySkipsFollowTheKeyLevel : Prop :=
  ∀ (x : RegIx) (k : Fin 16) (s : State), (s.readV x).toNat = k.val →
    (∃ t, exec (.skp x) s = .next t ∧ t.pc = (if s.keys[k] = true then s.pc + 2 else s.pc) ∧
      s.unchangedBut t [.pc]) ∧
    (∃ t, exec (.sknp x) s = .next t ∧ t.pc = (if s.keys[k] = true then s.pc else s.pc + 2) ∧
      s.unchangedBut t [.pc])

/-- Ex9E and ExA1 with a key number of 16 or more, under each setting of `KEY_OOR`: no such key is held; or the low
nibble is the key; or the fault is latched and nothing else changes (D9, log 2; the latch is D7, log 5). -/
def Obligations.KeyNumbersAbove15FollowThePolicy : Prop :=
  ∀ (x : RegIx) (s : State), 16 ≤ (s.readV x).toNat →
    (s.params.keyOor = .notPressed →
      (∃ t, exec (.skp x) s = .next t ∧ t.pc = s.pc ∧ s.unchangedBut t []) ∧
      (∃ t, exec (.sknp x) s = .next t ∧ t.pc = s.pc + 2 ∧ s.unchangedBut t [.pc])) ∧
    (s.params.keyOor = .mask4 → ∀ k : Fin 16, (s.readV x).toNat % 16 = k.val →
      (∃ t, exec (.skp x) s = .next t ∧ t.pc = (if s.keys[k] = true then s.pc + 2 else s.pc) ∧
        s.unchangedBut t [.pc]) ∧
      (∃ t, exec (.sknp x) s = .next t ∧ t.pc = (if s.keys[k] = true then s.pc else s.pc + 2) ∧
        s.unchangedBut t [.pc])) ∧
    (s.params.keyOor = .fault →
      (∃ t, exec (.skp x) s = .next t ∧ t.fault = some (.keyIndexOutOfRange (s.readV x)) ∧
        s.unchangedBut t [.fault]) ∧
      (∃ t, exec (.sknp x) s = .next t ∧ t.fault = some (.keyIndexOutOfRange (s.readV x)) ∧
        s.unchangedBut t [.fault]))

/-- Fx07 reads `DT`, Fx15 and Fx18 write `DT` and `ST`, and each changes nothing else; `sound_active` follows a write
of `ST` at once (R195, R225). -/
def Obligations.TimerFormsMoveOneByte : Prop :=
  ∀ (x : RegIx) (s : State),
    (∃ t, exec (.ldVxDt x) s = .next t ∧ t.readV x = s.dt ∧ s.regsUnchangedBut t [x] ∧
      s.unchangedBut t [.regs]) ∧
    (∃ t, exec (.ldDtVx x) s = .next t ∧ t.dt = s.readV x ∧ s.unchangedBut t [.dt]) ∧
    (∃ t, exec (.ldStVx x) s = .next t ∧ t.st = s.readV x ∧
      (soundActive t = true ↔ 0 < (s.readV x).toNat) ∧ s.unchangedBut t [.st])

/-- Fx0A sets the wait and changes nothing else: not `V[x]`, not `PC`, and not by a key already held (D26, log 19). -/
def Obligations.KeyWaitBeginsAndKeepsTheRegister : Prop :=
  ∀ (x : RegIx) (s : State), ∃ t, exec (.ldVxK x) s = .next t ∧ t.wait = some x ∧
    awaitingKey t = true ∧ s.unchangedBut t [.wait]

/-- A waiting core: any number of steps, with any inputs, leave it paused, and then a delivered key goes to the
waiting register, the wait ends, and `PC` is where it was. -/
def Obligations.KeyWaitEndsAtTheDeliveredKey : Prop :=
  ∀ (inputs : List (KeyLevels × Byte)) (k : Nat) (x : RegIx) (rest : List HostOp) (s : State),
    k < 16 → s.fault = none → s.wait = some x →
    s.host = inputs.map (fun p => HostOp.step p.1 p.2) ++ .deliverKey k :: rest →
    ∃ t : State, core.run (inputs.length + 1) s = .next t ∧ (t.readV x).toNat = k ∧ t.wait = none ∧
      t.host = rest ∧ s.regsUnchangedBut t [x] ∧ s.unchangedBut t [.regs, .wait, .host]

/-! ## Host operations (60_exceptions.md, 70_reset_and_hazards.md) -/

/-- `deliverKey(k)`: to a waiting core, as above; to one that does not wait, no change; with k above 15, refused
(D20, log 16). -/
def Obligations.DeliverKeyWritesTheWaitingRegister : Prop :=
  ∀ (s : State) (k : Nat) (rest : List HostOp), s.host = .deliverKey k :: rest →
    (k < 16 → ∀ x, s.wait = some x → ∃ t, step s = .next t ∧ (t.readV x).toNat = k ∧ t.wait = none ∧
      t.host = rest ∧ s.regsUnchangedBut t [x] ∧ s.unchangedBut t [.regs, .wait, .host]) ∧
    (k < 16 → s.wait = none → step s = .next (s.setHost rest)) ∧
    (16 ≤ k → step s = .refused (.keyNumberOutOfRange k))

/-- `tick` takes one from each timer that is not 0, in every state, waiting and faulted ones included
(D19, log 17), and changes nothing else. -/
def Obligations.TickCountsBothTimersDown : Prop :=
  ∀ (s : State) (rest : List HostOp), s.host = .tick :: rest →
    ∃ t, step s = .next t ∧ t.dt.toNat = s.dt.toNat - 1 ∧ t.st.toNat = s.st.toNat - 1 ∧
      (soundActive t = true ↔ 1 < s.st.toNat) ∧ t.host = rest ∧ s.unchangedBut t [.dt, .st, .host]

/-- Repeated ticks never drive a timer below 0: after n of them each timer is n less, floored at 0. -/
def Obligations.RepeatedTicksFloorAtZero : Prop :=
  ∀ (n : Nat) (rest : List HostOp) (s : State), s.host = List.replicate n .tick ++ rest →
    ∃ t : State, core.run n s = .next t ∧ t.dt.toNat = s.dt.toNat - n ∧ t.st.toNat = s.st.toNat - n ∧
      t.host = rest ∧ s.unchangedBut t [.dt, .st, .host]

/-- `loadProgram` of an image that fits: byte k at 0x200 + k, every other byte and everything else unchanged, and ok
reported, in every state (D25, log 18). -/
def Obligations.LoadProgramCopiesTheImage : Prop :=
  ∀ (s : State) (bytes : List Byte) (rest : List HostOp), s.mem.wf = true →
    s.host = .loadProgram bytes :: rest → 0x200 + bytes.length ≤ 0x1000 →
    ∃ t, step s = .next t ∧
      (∀ (k : Nat) (h : k < bytes.length), t.readByte (BitVec.ofNat 12 (0x200 + k)) = bytes[k]) ∧
      (∀ a : Addr, a.toNat < 0x200 ∨ 0x200 + bytes.length ≤ a.toNat → t.readByte a = s.readByte a) ∧
      t.events = s.events ++ [.loadResult none] ∧ t.host = rest ∧
      s.unchangedBut t [.mem, .events, .host]

/-- `loadProgram` of an image that does not fit: `OutOfBoundsLoad` reported, no byte of memory and nothing else
changed, the fault latch included. -/
def Obligations.OversizedLoadIsRejectedWhole : Prop :=
  ∀ (s : State) (bytes : List Byte) (rest : List HostOp),
    s.host = .loadProgram bytes :: rest → 0x200 + bytes.length > 0x1000 →
    ∃ t, step s = .next t ∧ t.events = s.events ++ [.loadResult (some .outOfBoundsLoad)] ∧
      t.host = rest ∧ s.unchangedBut t [.events, .host]

/-- `reset`, in every state: the values of 10_state.md, the font written again from `FONT`, memory from 0x050 up, the
parameters, the inputs and the events as they were (D7, D15, D21, log 15). -/
def Obligations.ResetOperationRestoresTheCore : Prop :=
  ∀ (s : State) (rest : List HostOp), s.mem.wf = true → s.host = .reset :: rest →
    ∃ t, step s = .next t ∧ (∀ r, t.readV r = 0x00) ∧ t.i = 0x0000 ∧ t.pc = 0x0200 ∧ t.stack = [] ∧
      t.dt = 0x00 ∧ t.st = 0x00 ∧ (∀ r c, t.fb.cell r c = false) ∧ t.wait = none ∧ t.fault = none ∧
      (∀ (d : Fin 16) (j : Fin 5),
        t.readByte (BitVec.ofNat 12 (5 * d.val + j.val)) = s.params.font[d][j]) ∧
      (∀ a : Addr, 0x50 ≤ a.toNat → t.readByte a = s.readByte a) ∧ t.host = rest ∧
      s.unchangedBut t
        [.regs, .index, .pc, .stack, .dt, .st, .fb, .mem, .wait, .fault, .host]

/-- Power-on with any parameters and any `MEM_INIT`: the core in its reset values, the font below 0x050 and `MEM_INIT`
above, in canonical form; and with the default parameters it is `State.reset` (D13, D14, log 7, log 8). -/
def Obligations.PowerOnGivesTheResetState : Prop :=
  (∀ (p : Params) (memInit : Nat → Byte),
    (powerOn p memInit).params = p ∧ (powerOn p memInit).mem.wf = true ∧
    (∀ r, (powerOn p memInit).readV r = 0x00) ∧ (powerOn p memInit).pc = 0x0200 ∧
    (powerOn p memInit).i = 0x0000 ∧ (powerOn p memInit).stack = [] ∧
    (powerOn p memInit).dt = 0x00 ∧ (powerOn p memInit).st = 0x00 ∧
    (∀ r c, (powerOn p memInit).fb.cell r c = false) ∧
    (powerOn p memInit).wait = none ∧ (powerOn p memInit).fault = none ∧
    (∀ (d : Fin 16) (j : Fin 5),
      (powerOn p memInit).readByte (BitVec.ofNat 12 (5 * d.val + j.val)) = p.font[d][j]) ∧
    (∀ a : Addr, 0x50 ≤ a.toNat → (powerOn p memInit).readByte a = memInit a.toNat)) ∧
  powerOn defaultParams memInit = State.reset

/-- What the state after power-on holds: the values of 10_state.md, the font, and zeros above it. The font bytes and
the zeros are D13 and D14 (log 7, log 8). -/
def Obligations.ResetStateHoldsTheStatedValues : Prop :=
  (∀ r, State.reset.readV r = 0x00) ∧ State.reset.i = 0x0000 ∧ State.reset.pc = 0x0200 ∧
  State.reset.stack = [] ∧ State.reset.dt = 0x00 ∧ State.reset.st = 0x00 ∧
  (∀ r c, State.reset.fb.cell r c = false) ∧ State.reset.wait = none ∧ State.reset.fault = none ∧
  (∀ (d : Fin 16) (j : Fin 5),
    State.reset.readByte (BitVec.ofNat 12 (5 * d.val + j.val)) = defaultFont[d][j]) ∧
  (∀ a : Addr, 0x50 ≤ a.toNat → State.reset.readByte a = 0x00)
end

