-- ==== Sys2Proof/Laws/Decode.lean ====
section
/-! SUPPORT. The fields of an encoded word are the operands it was made from (30_encoding.md R71, R72). -/

namespace Sys2Proof

/-! ## Format NNN -/

theorem majorField_encodeNNN (m : BitVec 4) (nnn : Addr) : majorField (encodeNNN m.toNat nnn) = m := by
  apply BitVec.eq_of_toNat_eq
  simp [majorField, encodeNNN, BitVec.extractLsb'_toNat]
  omega

theorem nnnField_encodeNNN (m : BitVec 4) (nnn : Addr) : nnnField (encodeNNN m.toNat nnn) = nnn := by
  apply BitVec.eq_of_toNat_eq
  simp [nnnField, encodeNNN, BitVec.extractLsb'_toNat]
  omega

/-! ## Format XKK -/

theorem majorField_encodeXKK (m : BitVec 4) (x : RegIx) (kk : Byte) :
    majorField (encodeXKK m.toNat x kk) = m := by
  apply BitVec.eq_of_toNat_eq
  simp [majorField, encodeXKK, BitVec.extractLsb'_toNat]
  omega

theorem xField_encodeXKK (m : BitVec 4) (x : RegIx) (kk : Byte) :
    xField (encodeXKK m.toNat x kk) = x := by
  apply Fin.ext
  simp [xField, encodeXKK]
  omega

theorem kkField_encodeXKK (m : BitVec 4) (x : RegIx) (kk : Byte) :
    kkField (encodeXKK m.toNat x kk) = kk := by
  apply BitVec.eq_of_toNat_eq
  simp [kkField, encodeXKK, BitVec.extractLsb'_toNat]
  omega

/-! ## Formats XY and XYN -/

theorem majorField_encodeXYN (m n : BitVec 4) (x y : RegIx) :
    majorField (encodeXYN m.toNat x y n.toNat) = m := by
  apply BitVec.eq_of_toNat_eq
  simp [majorField, encodeXYN, BitVec.extractLsb'_toNat]
  omega

theorem xField_encodeXYN (m n : BitVec 4) (x y : RegIx) :
    xField (encodeXYN m.toNat x y n.toNat) = x := by
  apply Fin.ext
  simp [xField, encodeXYN]
  omega

theorem yField_encodeXYN (m n : BitVec 4) (x y : RegIx) :
    yField (encodeXYN m.toNat x y n.toNat) = y := by
  apply Fin.ext
  simp [yField, encodeXYN]
  omega

theorem nField_encodeXYN (m n : BitVec 4) (x y : RegIx) :
    nField (encodeXYN m.toNat x y n.toNat) = n := by
  apply BitVec.eq_of_toNat_eq
  simp [nField, encodeXYN, BitVec.extractLsb'_toNat]
  omega

/-! ## Format XF -/

theorem majorField_encodeXF (m : BitVec 4) (x : RegIx) (low : Byte) :
    majorField (encodeXF m.toNat x low.toNat) = m := by
  apply BitVec.eq_of_toNat_eq
  simp [majorField, encodeXF, BitVec.extractLsb'_toNat]
  omega

theorem xField_encodeXF (m : BitVec 4) (x : RegIx) (low : Byte) :
    xField (encodeXF m.toNat x low.toNat) = x := by
  apply Fin.ext
  simp [xField, encodeXF]
  omega

theorem kkField_encodeXF (m : BitVec 4) (x : RegIx) (low : Byte) :
    kkField (encodeXF m.toNat x low.toNat) = low := by
  apply BitVec.eq_of_toNat_eq
  simp [kkField, encodeXF, BitVec.extractLsb'_toNat]
  omega

/-! ## Bytes of a word (R52) -/

theorem wordOfBytes_split (op : Word) : wordOfBytes (highByte op) (lowByte op) = op := by
  apply BitVec.eq_of_toNat_eq
  simp [wordOfBytes, highByte, lowByte, BitVec.extractLsb'_toNat]
  omega

theorem highByte_wordOfBytes (hi lo : Byte) : highByte (wordOfBytes hi lo) = hi := by
  apply BitVec.eq_of_toNat_eq
  simp [wordOfBytes, highByte, BitVec.extractLsb'_toNat]
  omega

theorem lowByte_wordOfBytes (hi lo : Byte) : lowByte (wordOfBytes hi lo) = lo := by
  apply BitVec.eq_of_toNat_eq
  simp [wordOfBytes, lowByte, BitVec.extractLsb'_toNat]
  omega

/-! ## Masks, nibble by nibble (R73, R75) -/

/-- Words with equal nibbles are equal. -/
theorem word_ext_nibbles {a b : Word} (h3 : majorField a = majorField b)
    (h2 : a.extractLsb' 8 4 = b.extractLsb' 8 4) (h1 : a.extractLsb' 4 4 = b.extractLsb' 4 4)
    (h0 : nField a = nField b) : a = b := by
  apply BitVec.eq_of_toNat_eq
  have e3 := congrArg BitVec.toNat h3
  have e2 := congrArg BitVec.toNat h2
  have e1 := congrArg BitVec.toNat h1
  have e0 := congrArg BitVec.toNat h0
  simp only [majorField, nField, BitVec.extractLsb'_toNat] at e3 e2 e1 e0
  omega

/-- A row selects a word exactly when it does so nibble by nibble. -/
theorem selects_iff_nibbles (r : OpcodeRow) (op : Word) :
    r.selects op = true ↔
      majorField op &&& majorField r.mask = majorField r.pattern ∧
      op.extractLsb' 8 4 &&& r.mask.extractLsb' 8 4 = r.pattern.extractLsb' 8 4 ∧
      op.extractLsb' 4 4 &&& r.mask.extractLsb' 4 4 = r.pattern.extractLsb' 4 4 ∧
      nField op &&& nField r.mask = nField r.pattern := by
  simp only [OpcodeRow.selects, beq_iff_eq, majorField, nField, ← BitVec.extractLsb'_and]
  constructor
  · intro h
    rw [h]
    exact ⟨rfl, rfl, rfl, rfl⟩
  · rintro ⟨h3, h2, h1, h0⟩
    exact word_ext_nibbles h3 h2 h1 h0

/-- The low byte of a word from its two low nibbles. -/
theorem kkField_eq_iff (op : Word) (kk : Byte) :
    kkField op = kk ↔
      op.extractLsb' 4 4 = kk.extractLsb' 4 4 ∧ nField op = kk.extractLsb' 0 4 := by
  simp only [kkField, nField, ← BitVec.toNat_inj, BitVec.extractLsb'_toNat]
  omega

/-- The address field of a word from its three low nibbles. -/
theorem nnnField_eq_iff (op : Word) (nnn : Addr) :
    nnnField op = nnn ↔
      op.extractLsb' 8 4 = nnn.extractLsb' 8 4 ∧ op.extractLsb' 4 4 = nnn.extractLsb' 4 4 ∧
        nField op = nnn.extractLsb' 0 4 := by
  simp only [nnnField, nField, ← BitVec.toNat_inj, BitVec.extractLsb'_toNat]
  omega

end Sys2Proof
end

