-- ==== Sys2Proof/Laws/State.lean ====
section
/-! SUPPORT. One lemma per field per update of the state, true by rfl: no later proof unfolds a record update. Then reading a register after a write. -/

namespace Sys2Proof.Machine

section setV
variable (s : State) (r : RegIx) (b : Byte)

@[simp] theorem State.setV_v : (s.setV r b).v = s.v.set r b := rfl
@[simp] theorem State.setV_i : (s.setV r b).i = s.i := rfl
@[simp] theorem State.setV_pc : (s.setV r b).pc = s.pc := rfl
@[simp] theorem State.setV_stack : (s.setV r b).stack = s.stack := rfl
@[simp] theorem State.setV_dt : (s.setV r b).dt = s.dt := rfl
@[simp] theorem State.setV_st : (s.setV r b).st = s.st := rfl
@[simp] theorem State.setV_fb : (s.setV r b).fb = s.fb := rfl
@[simp] theorem State.setV_mem : (s.setV r b).mem = s.mem := rfl
@[simp] theorem State.setV_wait : (s.setV r b).wait = s.wait := rfl
@[simp] theorem State.setV_fault : (s.setV r b).fault = s.fault := rfl
@[simp] theorem State.setV_params : (s.setV r b).params = s.params := rfl
@[simp] theorem State.setV_keys : (s.setV r b).keys = s.keys := rfl
@[simp] theorem State.setV_rnd : (s.setV r b).rnd = s.rnd := rfl
@[simp] theorem State.setV_samples : (s.setV r b).samples = s.samples := rfl
@[simp] theorem State.setV_host : (s.setV r b).host = s.host := rfl
@[simp] theorem State.setV_events : (s.setV r b).events = s.events := rfl
@[simp] theorem State.setV_readByte (a : Addr) : (s.setV r b).readByte a = s.readByte a := rfl

end setV

section setRegs
variable (s : State) (v : Vector Byte 16)

@[simp] theorem State.setRegs_v : (s.setRegs v).v = v := rfl
@[simp] theorem State.setRegs_i : (s.setRegs v).i = s.i := rfl
@[simp] theorem State.setRegs_pc : (s.setRegs v).pc = s.pc := rfl
@[simp] theorem State.setRegs_stack : (s.setRegs v).stack = s.stack := rfl
@[simp] theorem State.setRegs_dt : (s.setRegs v).dt = s.dt := rfl
@[simp] theorem State.setRegs_st : (s.setRegs v).st = s.st := rfl
@[simp] theorem State.setRegs_fb : (s.setRegs v).fb = s.fb := rfl
@[simp] theorem State.setRegs_mem : (s.setRegs v).mem = s.mem := rfl
@[simp] theorem State.setRegs_wait : (s.setRegs v).wait = s.wait := rfl
@[simp] theorem State.setRegs_fault : (s.setRegs v).fault = s.fault := rfl
@[simp] theorem State.setRegs_params : (s.setRegs v).params = s.params := rfl
@[simp] theorem State.setRegs_keys : (s.setRegs v).keys = s.keys := rfl
@[simp] theorem State.setRegs_rnd : (s.setRegs v).rnd = s.rnd := rfl
@[simp] theorem State.setRegs_samples : (s.setRegs v).samples = s.samples := rfl
@[simp] theorem State.setRegs_host : (s.setRegs v).host = s.host := rfl
@[simp] theorem State.setRegs_events : (s.setRegs v).events = s.events := rfl
@[simp] theorem State.setRegs_readByte (a : Addr) : (s.setRegs v).readByte a = s.readByte a := rfl

end setRegs

section setI
variable (s : State) (w : Word)

@[simp] theorem State.setI_v : (s.setI w).v = s.v := rfl
@[simp] theorem State.setI_i : (s.setI w).i = w := rfl
@[simp] theorem State.setI_pc : (s.setI w).pc = s.pc := rfl
@[simp] theorem State.setI_stack : (s.setI w).stack = s.stack := rfl
@[simp] theorem State.setI_dt : (s.setI w).dt = s.dt := rfl
@[simp] theorem State.setI_st : (s.setI w).st = s.st := rfl
@[simp] theorem State.setI_fb : (s.setI w).fb = s.fb := rfl
@[simp] theorem State.setI_mem : (s.setI w).mem = s.mem := rfl
@[simp] theorem State.setI_wait : (s.setI w).wait = s.wait := rfl
@[simp] theorem State.setI_fault : (s.setI w).fault = s.fault := rfl
@[simp] theorem State.setI_params : (s.setI w).params = s.params := rfl
@[simp] theorem State.setI_keys : (s.setI w).keys = s.keys := rfl
@[simp] theorem State.setI_rnd : (s.setI w).rnd = s.rnd := rfl
@[simp] theorem State.setI_samples : (s.setI w).samples = s.samples := rfl
@[simp] theorem State.setI_host : (s.setI w).host = s.host := rfl
@[simp] theorem State.setI_events : (s.setI w).events = s.events := rfl
@[simp] theorem State.setI_readByte (a : Addr) : (s.setI w).readByte a = s.readByte a := rfl
@[simp] theorem State.setI_readV (q : RegIx) : (s.setI w).readV q = s.readV q := rfl

end setI

section setPc
variable (s : State) (w : Word)

@[simp] theorem State.setPc_v : (s.setPc w).v = s.v := rfl
@[simp] theorem State.setPc_i : (s.setPc w).i = s.i := rfl
@[simp] theorem State.setPc_pc : (s.setPc w).pc = w := rfl
@[simp] theorem State.setPc_stack : (s.setPc w).stack = s.stack := rfl
@[simp] theorem State.setPc_dt : (s.setPc w).dt = s.dt := rfl
@[simp] theorem State.setPc_st : (s.setPc w).st = s.st := rfl
@[simp] theorem State.setPc_fb : (s.setPc w).fb = s.fb := rfl
@[simp] theorem State.setPc_mem : (s.setPc w).mem = s.mem := rfl
@[simp] theorem State.setPc_wait : (s.setPc w).wait = s.wait := rfl
@[simp] theorem State.setPc_fault : (s.setPc w).fault = s.fault := rfl
@[simp] theorem State.setPc_params : (s.setPc w).params = s.params := rfl
@[simp] theorem State.setPc_keys : (s.setPc w).keys = s.keys := rfl
@[simp] theorem State.setPc_rnd : (s.setPc w).rnd = s.rnd := rfl
@[simp] theorem State.setPc_samples : (s.setPc w).samples = s.samples := rfl
@[simp] theorem State.setPc_host : (s.setPc w).host = s.host := rfl
@[simp] theorem State.setPc_events : (s.setPc w).events = s.events := rfl
@[simp] theorem State.setPc_readByte (a : Addr) : (s.setPc w).readByte a = s.readByte a := rfl
@[simp] theorem State.setPc_readV (q : RegIx) : (s.setPc w).readV q = s.readV q := rfl

end setPc

section setStack
variable (s : State) (k : List Word)

@[simp] theorem State.setStack_v : (s.setStack k).v = s.v := rfl
@[simp] theorem State.setStack_i : (s.setStack k).i = s.i := rfl
@[simp] theorem State.setStack_pc : (s.setStack k).pc = s.pc := rfl
@[simp] theorem State.setStack_stack : (s.setStack k).stack = k := rfl
@[simp] theorem State.setStack_dt : (s.setStack k).dt = s.dt := rfl
@[simp] theorem State.setStack_st : (s.setStack k).st = s.st := rfl
@[simp] theorem State.setStack_fb : (s.setStack k).fb = s.fb := rfl
@[simp] theorem State.setStack_mem : (s.setStack k).mem = s.mem := rfl
@[simp] theorem State.setStack_wait : (s.setStack k).wait = s.wait := rfl
@[simp] theorem State.setStack_fault : (s.setStack k).fault = s.fault := rfl
@[simp] theorem State.setStack_params : (s.setStack k).params = s.params := rfl
@[simp] theorem State.setStack_keys : (s.setStack k).keys = s.keys := rfl
@[simp] theorem State.setStack_rnd : (s.setStack k).rnd = s.rnd := rfl
@[simp] theorem State.setStack_samples : (s.setStack k).samples = s.samples := rfl
@[simp] theorem State.setStack_host : (s.setStack k).host = s.host := rfl
@[simp] theorem State.setStack_events : (s.setStack k).events = s.events := rfl
@[simp] theorem State.setStack_readByte (a : Addr) : (s.setStack k).readByte a = s.readByte a := rfl
@[simp] theorem State.setStack_readV (q : RegIx) : (s.setStack k).readV q = s.readV q := rfl

end setStack

section setDt
variable (s : State) (b : Byte)

@[simp] theorem State.setDt_v : (s.setDt b).v = s.v := rfl
@[simp] theorem State.setDt_i : (s.setDt b).i = s.i := rfl
@[simp] theorem State.setDt_pc : (s.setDt b).pc = s.pc := rfl
@[simp] theorem State.setDt_stack : (s.setDt b).stack = s.stack := rfl
@[simp] theorem State.setDt_dt : (s.setDt b).dt = b := rfl
@[simp] theorem State.setDt_st : (s.setDt b).st = s.st := rfl
@[simp] theorem State.setDt_fb : (s.setDt b).fb = s.fb := rfl
@[simp] theorem State.setDt_mem : (s.setDt b).mem = s.mem := rfl
@[simp] theorem State.setDt_wait : (s.setDt b).wait = s.wait := rfl
@[simp] theorem State.setDt_fault : (s.setDt b).fault = s.fault := rfl
@[simp] theorem State.setDt_params : (s.setDt b).params = s.params := rfl
@[simp] theorem State.setDt_keys : (s.setDt b).keys = s.keys := rfl
@[simp] theorem State.setDt_rnd : (s.setDt b).rnd = s.rnd := rfl
@[simp] theorem State.setDt_samples : (s.setDt b).samples = s.samples := rfl
@[simp] theorem State.setDt_host : (s.setDt b).host = s.host := rfl
@[simp] theorem State.setDt_events : (s.setDt b).events = s.events := rfl
@[simp] theorem State.setDt_readByte (a : Addr) : (s.setDt b).readByte a = s.readByte a := rfl
@[simp] theorem State.setDt_readV (q : RegIx) : (s.setDt b).readV q = s.readV q := rfl

end setDt

section setSt
variable (s : State) (b : Byte)

@[simp] theorem State.setSt_v : (s.setSt b).v = s.v := rfl
@[simp] theorem State.setSt_i : (s.setSt b).i = s.i := rfl
@[simp] theorem State.setSt_pc : (s.setSt b).pc = s.pc := rfl
@[simp] theorem State.setSt_stack : (s.setSt b).stack = s.stack := rfl
@[simp] theorem State.setSt_dt : (s.setSt b).dt = s.dt := rfl
@[simp] theorem State.setSt_st : (s.setSt b).st = b := rfl
@[simp] theorem State.setSt_fb : (s.setSt b).fb = s.fb := rfl
@[simp] theorem State.setSt_mem : (s.setSt b).mem = s.mem := rfl
@[simp] theorem State.setSt_wait : (s.setSt b).wait = s.wait := rfl
@[simp] theorem State.setSt_fault : (s.setSt b).fault = s.fault := rfl
@[simp] theorem State.setSt_params : (s.setSt b).params = s.params := rfl
@[simp] theorem State.setSt_keys : (s.setSt b).keys = s.keys := rfl
@[simp] theorem State.setSt_rnd : (s.setSt b).rnd = s.rnd := rfl
@[simp] theorem State.setSt_samples : (s.setSt b).samples = s.samples := rfl
@[simp] theorem State.setSt_host : (s.setSt b).host = s.host := rfl
@[simp] theorem State.setSt_events : (s.setSt b).events = s.events := rfl
@[simp] theorem State.setSt_readByte (a : Addr) : (s.setSt b).readByte a = s.readByte a := rfl
@[simp] theorem State.setSt_readV (q : RegIx) : (s.setSt b).readV q = s.readV q := rfl

end setSt

section setFb
variable (s : State) (f : FrameBuffer)

@[simp] theorem State.setFb_v : (s.setFb f).v = s.v := rfl
@[simp] theorem State.setFb_i : (s.setFb f).i = s.i := rfl
@[simp] theorem State.setFb_pc : (s.setFb f).pc = s.pc := rfl
@[simp] theorem State.setFb_stack : (s.setFb f).stack = s.stack := rfl
@[simp] theorem State.setFb_dt : (s.setFb f).dt = s.dt := rfl
@[simp] theorem State.setFb_st : (s.setFb f).st = s.st := rfl
@[simp] theorem State.setFb_fb : (s.setFb f).fb = f := rfl
@[simp] theorem State.setFb_mem : (s.setFb f).mem = s.mem := rfl
@[simp] theorem State.setFb_wait : (s.setFb f).wait = s.wait := rfl
@[simp] theorem State.setFb_fault : (s.setFb f).fault = s.fault := rfl
@[simp] theorem State.setFb_params : (s.setFb f).params = s.params := rfl
@[simp] theorem State.setFb_keys : (s.setFb f).keys = s.keys := rfl
@[simp] theorem State.setFb_rnd : (s.setFb f).rnd = s.rnd := rfl
@[simp] theorem State.setFb_samples : (s.setFb f).samples = s.samples := rfl
@[simp] theorem State.setFb_host : (s.setFb f).host = s.host := rfl
@[simp] theorem State.setFb_events : (s.setFb f).events = s.events := rfl
@[simp] theorem State.setFb_readByte (a : Addr) : (s.setFb f).readByte a = s.readByte a := rfl
@[simp] theorem State.setFb_readV (q : RegIx) : (s.setFb f).readV q = s.readV q := rfl

end setFb

section setMem
variable (s : State) (m : Memory)

@[simp] theorem State.setMem_v : (s.setMem m).v = s.v := rfl
@[simp] theorem State.setMem_i : (s.setMem m).i = s.i := rfl
@[simp] theorem State.setMem_pc : (s.setMem m).pc = s.pc := rfl
@[simp] theorem State.setMem_stack : (s.setMem m).stack = s.stack := rfl
@[simp] theorem State.setMem_dt : (s.setMem m).dt = s.dt := rfl
@[simp] theorem State.setMem_st : (s.setMem m).st = s.st := rfl
@[simp] theorem State.setMem_fb : (s.setMem m).fb = s.fb := rfl
@[simp] theorem State.setMem_mem : (s.setMem m).mem = m := rfl
@[simp] theorem State.setMem_wait : (s.setMem m).wait = s.wait := rfl
@[simp] theorem State.setMem_fault : (s.setMem m).fault = s.fault := rfl
@[simp] theorem State.setMem_params : (s.setMem m).params = s.params := rfl
@[simp] theorem State.setMem_keys : (s.setMem m).keys = s.keys := rfl
@[simp] theorem State.setMem_rnd : (s.setMem m).rnd = s.rnd := rfl
@[simp] theorem State.setMem_samples : (s.setMem m).samples = s.samples := rfl
@[simp] theorem State.setMem_host : (s.setMem m).host = s.host := rfl
@[simp] theorem State.setMem_events : (s.setMem m).events = s.events := rfl
@[simp] theorem State.setMem_readV (q : RegIx) : (s.setMem m).readV q = s.readV q := rfl

end setMem

section setWait
variable (s : State) (w : Option RegIx)

@[simp] theorem State.setWait_v : (s.setWait w).v = s.v := rfl
@[simp] theorem State.setWait_i : (s.setWait w).i = s.i := rfl
@[simp] theorem State.setWait_pc : (s.setWait w).pc = s.pc := rfl
@[simp] theorem State.setWait_stack : (s.setWait w).stack = s.stack := rfl
@[simp] theorem State.setWait_dt : (s.setWait w).dt = s.dt := rfl
@[simp] theorem State.setWait_st : (s.setWait w).st = s.st := rfl
@[simp] theorem State.setWait_fb : (s.setWait w).fb = s.fb := rfl
@[simp] theorem State.setWait_mem : (s.setWait w).mem = s.mem := rfl
@[simp] theorem State.setWait_wait : (s.setWait w).wait = w := rfl
@[simp] theorem State.setWait_fault : (s.setWait w).fault = s.fault := rfl
@[simp] theorem State.setWait_params : (s.setWait w).params = s.params := rfl
@[simp] theorem State.setWait_keys : (s.setWait w).keys = s.keys := rfl
@[simp] theorem State.setWait_rnd : (s.setWait w).rnd = s.rnd := rfl
@[simp] theorem State.setWait_samples : (s.setWait w).samples = s.samples := rfl
@[simp] theorem State.setWait_host : (s.setWait w).host = s.host := rfl
@[simp] theorem State.setWait_events : (s.setWait w).events = s.events := rfl
@[simp] theorem State.setWait_readByte (a : Addr) : (s.setWait w).readByte a = s.readByte a := rfl
@[simp] theorem State.setWait_readV (q : RegIx) : (s.setWait w).readV q = s.readV q := rfl

end setWait

section setFault
variable (s : State) (f : Option Fault)

@[simp] theorem State.setFault_v : (s.setFault f).v = s.v := rfl
@[simp] theorem State.setFault_i : (s.setFault f).i = s.i := rfl
@[simp] theorem State.setFault_pc : (s.setFault f).pc = s.pc := rfl
@[simp] theorem State.setFault_stack : (s.setFault f).stack = s.stack := rfl
@[simp] theorem State.setFault_dt : (s.setFault f).dt = s.dt := rfl
@[simp] theorem State.setFault_st : (s.setFault f).st = s.st := rfl
@[simp] theorem State.setFault_fb : (s.setFault f).fb = s.fb := rfl
@[simp] theorem State.setFault_mem : (s.setFault f).mem = s.mem := rfl
@[simp] theorem State.setFault_wait : (s.setFault f).wait = s.wait := rfl
@[simp] theorem State.setFault_fault : (s.setFault f).fault = f := rfl
@[simp] theorem State.setFault_params : (s.setFault f).params = s.params := rfl
@[simp] theorem State.setFault_keys : (s.setFault f).keys = s.keys := rfl
@[simp] theorem State.setFault_rnd : (s.setFault f).rnd = s.rnd := rfl
@[simp] theorem State.setFault_samples : (s.setFault f).samples = s.samples := rfl
@[simp] theorem State.setFault_host : (s.setFault f).host = s.host := rfl
@[simp] theorem State.setFault_events : (s.setFault f).events = s.events := rfl
@[simp] theorem State.setFault_readByte (a : Addr) : (s.setFault f).readByte a = s.readByte a := rfl
@[simp] theorem State.setFault_readV (q : RegIx) : (s.setFault f).readV q = s.readV q := rfl

end setFault

section setHost
variable (s : State) (ops : List HostOp)

@[simp] theorem State.setHost_v : (s.setHost ops).v = s.v := rfl
@[simp] theorem State.setHost_i : (s.setHost ops).i = s.i := rfl
@[simp] theorem State.setHost_pc : (s.setHost ops).pc = s.pc := rfl
@[simp] theorem State.setHost_stack : (s.setHost ops).stack = s.stack := rfl
@[simp] theorem State.setHost_dt : (s.setHost ops).dt = s.dt := rfl
@[simp] theorem State.setHost_st : (s.setHost ops).st = s.st := rfl
@[simp] theorem State.setHost_fb : (s.setHost ops).fb = s.fb := rfl
@[simp] theorem State.setHost_mem : (s.setHost ops).mem = s.mem := rfl
@[simp] theorem State.setHost_wait : (s.setHost ops).wait = s.wait := rfl
@[simp] theorem State.setHost_fault : (s.setHost ops).fault = s.fault := rfl
@[simp] theorem State.setHost_params : (s.setHost ops).params = s.params := rfl
@[simp] theorem State.setHost_keys : (s.setHost ops).keys = s.keys := rfl
@[simp] theorem State.setHost_rnd : (s.setHost ops).rnd = s.rnd := rfl
@[simp] theorem State.setHost_samples : (s.setHost ops).samples = s.samples := rfl
@[simp] theorem State.setHost_host : (s.setHost ops).host = ops := rfl
@[simp] theorem State.setHost_events : (s.setHost ops).events = s.events := rfl
@[simp] theorem State.setHost_readByte (a : Addr) : (s.setHost ops).readByte a = s.readByte a := rfl
@[simp] theorem State.setHost_readV (q : RegIx) : (s.setHost ops).readV q = s.readV q := rfl

end setHost

section emit
variable (s : State) (e : Event)

@[simp] theorem State.emit_v : (s.emit e).v = s.v := rfl
@[simp] theorem State.emit_i : (s.emit e).i = s.i := rfl
@[simp] theorem State.emit_pc : (s.emit e).pc = s.pc := rfl
@[simp] theorem State.emit_stack : (s.emit e).stack = s.stack := rfl
@[simp] theorem State.emit_dt : (s.emit e).dt = s.dt := rfl
@[simp] theorem State.emit_st : (s.emit e).st = s.st := rfl
@[simp] theorem State.emit_fb : (s.emit e).fb = s.fb := rfl
@[simp] theorem State.emit_mem : (s.emit e).mem = s.mem := rfl
@[simp] theorem State.emit_wait : (s.emit e).wait = s.wait := rfl
@[simp] theorem State.emit_fault : (s.emit e).fault = s.fault := rfl
@[simp] theorem State.emit_params : (s.emit e).params = s.params := rfl
@[simp] theorem State.emit_keys : (s.emit e).keys = s.keys := rfl
@[simp] theorem State.emit_rnd : (s.emit e).rnd = s.rnd := rfl
@[simp] theorem State.emit_samples : (s.emit e).samples = s.samples := rfl
@[simp] theorem State.emit_host : (s.emit e).host = s.host := rfl
@[simp] theorem State.emit_events : (s.emit e).events = s.events ++ [e] := rfl
@[simp] theorem State.emit_readByte (a : Addr) : (s.emit e).readByte a = s.readByte a := rfl
@[simp] theorem State.emit_readV (q : RegIx) : (s.emit e).readV q = s.readV q := rfl

end emit

section setInputs
variable (s : State) (keys : KeyLevels) (rnd : Byte)

@[simp] theorem State.setInputs_v : (s.setInputs keys rnd).v = s.v := rfl
@[simp] theorem State.setInputs_i : (s.setInputs keys rnd).i = s.i := rfl
@[simp] theorem State.setInputs_pc : (s.setInputs keys rnd).pc = s.pc := rfl
@[simp] theorem State.setInputs_stack : (s.setInputs keys rnd).stack = s.stack := rfl
@[simp] theorem State.setInputs_dt : (s.setInputs keys rnd).dt = s.dt := rfl
@[simp] theorem State.setInputs_st : (s.setInputs keys rnd).st = s.st := rfl
@[simp] theorem State.setInputs_fb : (s.setInputs keys rnd).fb = s.fb := rfl
@[simp] theorem State.setInputs_mem : (s.setInputs keys rnd).mem = s.mem := rfl
@[simp] theorem State.setInputs_wait : (s.setInputs keys rnd).wait = s.wait := rfl
@[simp] theorem State.setInputs_fault : (s.setInputs keys rnd).fault = s.fault := rfl
@[simp] theorem State.setInputs_params : (s.setInputs keys rnd).params = s.params := rfl
@[simp] theorem State.setInputs_keys : (s.setInputs keys rnd).keys = keys := rfl
@[simp] theorem State.setInputs_rnd : (s.setInputs keys rnd).rnd = rnd := rfl
@[simp] theorem State.setInputs_samples : (s.setInputs keys rnd).samples = s.samples + 1 := rfl
@[simp] theorem State.setInputs_host : (s.setInputs keys rnd).host = s.host := rfl
@[simp] theorem State.setInputs_events : (s.setInputs keys rnd).events = s.events := rfl
@[simp] theorem State.setInputs_readByte (a : Addr) : (s.setInputs keys rnd).readByte a = s.readByte a := rfl
@[simp] theorem State.setInputs_readV (q : RegIx) : (s.setInputs keys rnd).readV q = s.readV q := rfl

end setInputs

section advance
variable (s : State)

@[simp] theorem State.advance_v : (s.advance).v = s.v := rfl
@[simp] theorem State.advance_i : (s.advance).i = s.i := rfl
@[simp] theorem State.advance_pc : (s.advance).pc = s.pc + 2 := rfl
@[simp] theorem State.advance_stack : (s.advance).stack = s.stack := rfl
@[simp] theorem State.advance_dt : (s.advance).dt = s.dt := rfl
@[simp] theorem State.advance_st : (s.advance).st = s.st := rfl
@[simp] theorem State.advance_fb : (s.advance).fb = s.fb := rfl
@[simp] theorem State.advance_mem : (s.advance).mem = s.mem := rfl
@[simp] theorem State.advance_wait : (s.advance).wait = s.wait := rfl
@[simp] theorem State.advance_fault : (s.advance).fault = s.fault := rfl
@[simp] theorem State.advance_params : (s.advance).params = s.params := rfl
@[simp] theorem State.advance_keys : (s.advance).keys = s.keys := rfl
@[simp] theorem State.advance_rnd : (s.advance).rnd = s.rnd := rfl
@[simp] theorem State.advance_samples : (s.advance).samples = s.samples := rfl
@[simp] theorem State.advance_host : (s.advance).host = s.host := rfl
@[simp] theorem State.advance_events : (s.advance).events = s.events := rfl
@[simp] theorem State.advance_readByte (a : Addr) : (s.advance).readByte a = s.readByte a := rfl
@[simp] theorem State.advance_readV (q : RegIx) : (s.advance).readV q = s.readV q := rfl

end advance

section skipIf
variable (s : State) (test : Bool)

@[simp] theorem State.skipIf_v : (s.skipIf test).v = s.v := rfl
@[simp] theorem State.skipIf_i : (s.skipIf test).i = s.i := rfl
@[simp] theorem State.skipIf_pc : (s.skipIf test).pc = if test then s.pc + 2 else s.pc := rfl
@[simp] theorem State.skipIf_stack : (s.skipIf test).stack = s.stack := rfl
@[simp] theorem State.skipIf_dt : (s.skipIf test).dt = s.dt := rfl
@[simp] theorem State.skipIf_st : (s.skipIf test).st = s.st := rfl
@[simp] theorem State.skipIf_fb : (s.skipIf test).fb = s.fb := rfl
@[simp] theorem State.skipIf_mem : (s.skipIf test).mem = s.mem := rfl
@[simp] theorem State.skipIf_wait : (s.skipIf test).wait = s.wait := rfl
@[simp] theorem State.skipIf_fault : (s.skipIf test).fault = s.fault := rfl
@[simp] theorem State.skipIf_params : (s.skipIf test).params = s.params := rfl
@[simp] theorem State.skipIf_keys : (s.skipIf test).keys = s.keys := rfl
@[simp] theorem State.skipIf_rnd : (s.skipIf test).rnd = s.rnd := rfl
@[simp] theorem State.skipIf_samples : (s.skipIf test).samples = s.samples := rfl
@[simp] theorem State.skipIf_host : (s.skipIf test).host = s.host := rfl
@[simp] theorem State.skipIf_events : (s.skipIf test).events = s.events := rfl
@[simp] theorem State.skipIf_readByte (a : Addr) : (s.skipIf test).readByte a = s.readByte a := rfl
@[simp] theorem State.skipIf_readV (q : RegIx) : (s.skipIf test).readV q = s.readV q := rfl

end skipIf

/-- Reading a register after a write: the written one, else as before (R20: no register aliases another). -/
theorem State.setV_readV (s : State) (r q : RegIx) (b : Byte) :
    (s.setV r b).readV q = if q = r then b else s.readV q := by
  simp only [State.readV, State.setV, Fin.getElem_fin, Vector.getElem_set]
  by_cases h : q = r
  · simp [h]
  · have hv : ¬ r.val = q.val := fun e => h (Fin.ext e.symm)
    simp [h, hv]

@[simp] theorem State.setV_readV_self (s : State) (r : RegIx) (b : Byte) :
    (s.setV r b).readV r = b := by simp [State.setV_readV]

@[simp] theorem State.setV_readV_ne (s : State) {r q : RegIx} (b : Byte) (h : q ≠ r) :
    (s.setV r b).readV q = s.readV q := by simp [State.setV_readV, h]

/-- Reading memory after it is replaced. -/
@[simp] theorem State.setMem_readByte (s : State) (m : Memory) (a : Addr) :
    (s.setMem m).readByte a = m.read a := rfl

@[simp] theorem State.setRegs_readV (s : State) (v : Vector Byte 16) (q : RegIx) :
    (s.setRegs v).readV q = v[q] := rfl

/-! ## The two write orders of 40_step.md R96 -/

/-- Result, then flag: `VF` holds the flag whatever `x` is, `V[x]` the result when `x` is not 0xF. -/
theorem State.resultThenFlag_readV (s : State) (x q : RegIx) (result flag : Byte) :
    (s.resultThenFlag x result flag).readV q =
      if q = VF then flag else if q = x then result else s.readV q := by
  simp only [State.resultThenFlag, State.setV_readV]

/-- Flag, then result: `V[x]` holds the result whatever `x` is, `VF` the flag when `x` is not 0xF. -/
theorem State.flagThenResult_readV (s : State) (x q : RegIx) (flag result : Byte) :
    (s.flagThenResult x flag result).readV q =
      if q = x then result else if q = VF then flag else s.readV q := by
  simp only [State.flagThenResult, State.setV_readV]

end Sys2Proof.Machine
end

