-- ==== Sys2Proof/Laws/Display.lean ====
section
/-! SUPPORT. What a draw does to each cell, and when it reports a collision (44_display.md R182). -/

namespace Sys2Proof.Machine

theorem FrameBuffer.cell_clear (r : Fin 32) (c : Fin 64) : FrameBuffer.clear.cell r c = false := by
  simp [FrameBuffer.cell, FrameBuffer.clear]

theorem FrameBuffer.cell_setCell (f : FrameBuffer) (r q : Fin 32) (c d : Fin 64) (b : Bool) :
    (f.setCell r c b).cell q d = if q = r ∧ d = c then b else f.cell q d := by
  simp only [FrameBuffer.cell, FrameBuffer.setCell, Fin.getElem_fin, Vector.getElem_set]
  by_cases hq : r.val = q.val
  · by_cases hd : c.val = d.val
    · have : q = r ∧ d = c := ⟨Fin.ext hq.symm, Fin.ext hd.symm⟩
      simp [this]
    · have : ¬ (q = r ∧ d = c) := fun e => hd (by rw [e.2])
      simp [hd, this, hq]
  · have : ¬ (q = r ∧ d = c) := fun e => hq (by rw [e.1])
    simp [hq, this]

/-- Frame buffers with equal cells are equal. -/
theorem FrameBuffer.ext_cell {f g : FrameBuffer} (h : ∀ r c, f.cell r c = g.cell r c) : f = g := by
  apply Vector.ext
  intro r hr
  apply Vector.ext
  intro c hc
  exact h ⟨r, hr⟩ ⟨c, hc⟩

/-! ## One bit -/

/-- The position (row, col) is the cell (r, c). -/
def atCell (row col : Nat) (r : Fin 32) (c : Fin 64) : Bool := decide (row = r.val ∧ col = c.val)

theorem Canvas.drawBit_cell (p : Canvas) (row col : Nat) (bit : Bool) (r : Fin 32) (c : Fin 64) :
    (p.drawBit row col bit).fb.cell r c = (p.fb.cell r c ^^ (bit && atCell row col r c)) := by
  unfold Canvas.drawBit
  by_cases h : row < 32 ∧ col < 64
  · rw [dif_pos h]
    cases bit
    · simp
    · simp only [if_true, FrameBuffer.cell_setCell, Bool.true_and, atCell]
      by_cases hc : r = ⟨row, h.1⟩ ∧ c = ⟨col, h.2⟩
      · obtain ⟨rfl, rfl⟩ := hc
        simp
      · have : ¬ (row = r.val ∧ col = c.val) := fun e => hc ⟨Fin.ext e.1.symm, Fin.ext e.2.symm⟩
        simp [hc, this]
  · rw [dif_neg h]
    have : ¬ (row = r.val ∧ col = c.val) := by omega
    simp [atCell, this]

theorem Canvas.drawBit_hit (p : Canvas) (row col : Nat) (bit : Bool) :
    (p.drawBit row col bit).hit = true ↔
      p.hit = true ∨ ∃ r c, (bit && atCell row col r c) = true ∧ p.fb.cell r c = true := by
  unfold Canvas.drawBit
  by_cases h : row < 32 ∧ col < 64
  · rw [dif_pos h]
    cases bit
    · simp
    · simp only [if_true, Bool.or_eq_true, Bool.true_and, atCell, decide_eq_true_eq]
      refine or_congr_right ⟨fun hc => ⟨⟨row, h.1⟩, ⟨col, h.2⟩, ⟨rfl, rfl⟩, hc⟩, ?_⟩
      rintro ⟨r, c, ⟨rfl, rfl⟩, hc⟩
      exact hc
  · rw [dif_neg h]
    refine ⟨Or.inl, ?_⟩
    rintro (hp | ⟨r, c, hb, -⟩)
    · exact hp
    · simp only [atCell, Bool.and_eq_true, decide_eq_true_eq] at hb
      omega

/-! ## One row -/

/-- What the first `n` bits of a sprite row toggle. -/
def rowBit (row x0 n : Nat) (bits : Byte) (r : Fin 32) (c : Fin 64) : Bool :=
  decide (row = r.val ∧ x0 ≤ c.val ∧ c.val < x0 + n) && bits.getLsbD (7 - (c.val - x0))

theorem rowBit_succ (row x0 n : Nat) (bits : Byte) (r : Fin 32) (c : Fin 64) :
    rowBit row x0 (n + 1) bits r c =
      (rowBit row x0 n bits r c ^^ (bits.getLsbD (7 - n) && atCell row (x0 + n) r c)) := by
  unfold rowBit atCell
  by_cases hc : c.val = x0 + n
  · have h1 : ¬ (row = r.val ∧ x0 ≤ c.val ∧ c.val < x0 + n) := by omega
    have e : c.val - x0 = n := by omega
    have h2 : (row = r.val ∧ x0 ≤ c.val ∧ c.val < x0 + (n + 1)) ↔ row = r.val ∧ x0 + n = c.val := by
      omega
    simp only [h1, h2, e, decide_false, Bool.false_and, Bool.false_xor]
    exact Bool.and_comm ..
  · have h1 : ¬ (row = r.val ∧ x0 + n = c.val) := by omega
    have h2 : (row = r.val ∧ x0 ≤ c.val ∧ c.val < x0 + (n + 1)) ↔
        row = r.val ∧ x0 ≤ c.val ∧ c.val < x0 + n := by omega
    simp [h1, h2]

theorem rowBit_atCell_disjoint {row x0 n : Nat} {bits : Byte} {r : Fin 32} {c : Fin 64}
    (h : atCell row (x0 + n) r c = true) : rowBit row x0 n bits r c = false := by
  simp only [atCell, decide_eq_true_eq] at h
  have : ¬ (row = r.val ∧ x0 ≤ c.val ∧ c.val < x0 + n) := by omega
  simp [rowBit, this]

theorem Canvas.drawRow_prefix (p : Canvas) (row x0 : Nat) (bits : Byte) : ∀ n : Nat,
    let q := (List.range n).foldl (fun q c => q.drawBit row (x0 + c) (bits.getLsbD (7 - c))) p
    (∀ r c, q.fb.cell r c = (p.fb.cell r c ^^ rowBit row x0 n bits r c)) ∧
    (q.hit = true ↔ p.hit = true ∨ ∃ r c, rowBit row x0 n bits r c = true ∧ p.fb.cell r c = true)
  | 0 => by
    have h : ∀ (r : Fin 32) (c : Fin 64), rowBit row x0 0 bits r c = false := by
      intro r c
      have : ¬ (row = r.val ∧ x0 ≤ c.val ∧ c.val < x0 + 0) := by omega
      rw [rowBit, decide_eq_false this, Bool.false_and]
    simp [h]
  | n + 1 => by
    obtain ⟨hcell, hhit⟩ := Canvas.drawRow_prefix p row x0 bits n
    simp only [List.range_succ, List.foldl_append, List.foldl_cons, List.foldl_nil]
    refine ⟨fun r c => ?_, ?_⟩
    · rw [Canvas.drawBit_cell, hcell, rowBit_succ, Bool.xor_assoc]
    · rw [Canvas.drawBit_hit, hhit, or_assoc]
      refine or_congr_right ⟨?_, ?_⟩
      · rintro (⟨r, c, hb, hc⟩ | ⟨r, c, hb, hc⟩)
        · refine ⟨r, c, ?_, hc⟩
          have : atCell row (x0 + n) r c = false := by
            cases hat : atCell row (x0 + n) r c
            · rfl
            · rw [rowBit_atCell_disjoint hat] at hb
              exact absurd hb (by simp)
          rw [rowBit_succ, this, Bool.and_false, Bool.xor_false, hb]
        · simp only [Bool.and_eq_true] at hb
          have hn := rowBit_atCell_disjoint (bits := bits) hb.2
          rw [hcell, hn, Bool.xor_false] at hc
          exact ⟨r, c, by rw [rowBit_succ, hn, hb.1, hb.2]; rfl, hc⟩
      · rintro ⟨r, c, hb, hc⟩
        rw [rowBit_succ] at hb
        cases hn : rowBit row x0 n bits r c
        · rw [hn, Bool.false_xor] at hb
          exact Or.inr ⟨r, c, hb, by rw [hcell, hn, Bool.xor_false, hc]⟩
        · exact Or.inl ⟨r, c, hn, hc⟩

/-- A sprite row XORs its eight bits into columns `x0` to `x0 + 7`, those past the edge skipped. -/
theorem Canvas.drawRow_cell (p : Canvas) (row x0 : Nat) (bits : Byte) (r : Fin 32) (c : Fin 64) :
    (p.drawRow row x0 bits).fb.cell r c = (p.fb.cell r c ^^ rowBit row x0 8 bits r c) :=
  (Canvas.drawRow_prefix p row x0 bits 8).1 r c

theorem Canvas.drawRow_hit (p : Canvas) (row x0 : Nat) (bits : Byte) :
    (p.drawRow row x0 bits).hit = true ↔
      p.hit = true ∨ ∃ r c, rowBit row x0 8 bits r c = true ∧ p.fb.cell r c = true :=
  (Canvas.drawRow_prefix p row x0 bits 8).2

/-! ## All rows -/

/-- What the sprite's rows toggle. -/
def rowsBit (y0 x0 : Nat) (sprite : List Byte) (r : Fin 32) (c : Fin 64) : Bool :=
  decide (y0 ≤ r.val ∧ r.val < y0 + sprite.length ∧ x0 ≤ c.val ∧ c.val < x0 + 8) &&
    (sprite.getD (r.val - y0) 0).getLsbD (7 - (c.val - x0))

theorem rowsBit_nil (y0 x0 : Nat) (r : Fin 32) (c : Fin 64) : rowsBit y0 x0 [] r c = false := by
  have : ¬ (y0 ≤ r.val ∧ r.val < y0 + ([] : List Byte).length ∧ x0 ≤ c.val ∧ c.val < x0 + 8) := by
    rw [List.length_nil]
    omega
  rw [rowsBit, decide_eq_false this, Bool.false_and]

theorem rowsBit_cons (y0 x0 : Nat) (bits : Byte) (rest : List Byte) (r : Fin 32) (c : Fin 64) :
    rowsBit y0 x0 (bits :: rest) r c =
      (rowBit y0 x0 8 bits r c ^^ rowsBit (y0 + 1) x0 rest r c) := by
  unfold rowsBit rowBit
  by_cases hr : y0 = r.val
  · have h1 : ¬ (y0 + 1 ≤ r.val ∧ r.val < y0 + 1 + rest.length ∧ x0 ≤ c.val ∧ c.val < x0 + 8) := by
      omega
    have h2 : (y0 ≤ r.val ∧ r.val < y0 + (bits :: rest).length ∧ x0 ≤ c.val ∧ c.val < x0 + 8) ↔
        (y0 = r.val ∧ x0 ≤ c.val ∧ c.val < x0 + 8) := by
      simp only [List.length_cons]
      omega
    have e : r.val - y0 = 0 := by omega
    rw [decide_eq_false h1, Bool.false_and, Bool.xor_false, decide_eq_decide.2 h2, e]
    rfl
  · have h1 : ¬ (y0 = r.val ∧ x0 ≤ c.val ∧ c.val < x0 + 8) := by omega
    have h2 : (y0 ≤ r.val ∧ r.val < y0 + (bits :: rest).length ∧ x0 ≤ c.val ∧ c.val < x0 + 8) ↔
        (y0 + 1 ≤ r.val ∧ r.val < y0 + 1 + rest.length ∧ x0 ≤ c.val ∧ c.val < x0 + 8) := by
      simp only [List.length_cons]
      omega
    rw [decide_eq_false h1, Bool.false_and, Bool.false_xor]
    by_cases hc : y0 + 1 ≤ r.val ∧ r.val < y0 + 1 + rest.length ∧ x0 ≤ c.val ∧ c.val < x0 + 8
    · have e : r.val - y0 = r.val - (y0 + 1) + 1 := by omega
      rw [decide_eq_true (h2.2 hc), decide_eq_true hc, e, List.getD_cons_succ]
    · rw [decide_eq_false (h2.not.2 hc), decide_eq_false hc, Bool.false_and, Bool.false_and]

theorem rowBit_rowsBit_disjoint {y0 x0 : Nat} {bits : Byte} {rest : List Byte} {r : Fin 32}
    {c : Fin 64} (h : rowsBit (y0 + 1) x0 rest r c = true) : rowBit y0 x0 8 bits r c = false := by
  simp only [rowsBit, Bool.and_eq_true, decide_eq_true_eq] at h
  have : ¬ (y0 = r.val ∧ x0 ≤ c.val ∧ c.val < x0 + 8) := by omega
  simp [rowBit, this]

theorem Canvas.drawRows_cell : ∀ (sprite : List Byte) (p : Canvas) (y0 x0 : Nat) (r : Fin 32)
    (c : Fin 64),
    (p.drawRows y0 x0 sprite).fb.cell r c = (p.fb.cell r c ^^ rowsBit y0 x0 sprite r c)
  | [], p, y0, x0, r, c => by
    rw [rowsBit_nil, Bool.xor_false, Canvas.drawRows]
  | bits :: rest, p, y0, x0, r, c => by
    rw [Canvas.drawRows, Canvas.drawRows_cell rest, Canvas.drawRow_cell, rowsBit_cons,
      Bool.xor_assoc]

theorem Canvas.drawRows_hit : ∀ (sprite : List Byte) (p : Canvas) (y0 x0 : Nat),
    (p.drawRows y0 x0 sprite).hit = true ↔
      p.hit = true ∨ ∃ r c, rowsBit y0 x0 sprite r c = true ∧ p.fb.cell r c = true
  | [], p, y0, x0 => by
    simp [Canvas.drawRows, rowsBit_nil]
  | bits :: rest, p, y0, x0 => by
    rw [Canvas.drawRows, Canvas.drawRows_hit rest, Canvas.drawRow_hit, or_assoc]
    refine or_congr_right ⟨?_, ?_⟩
    · rintro (⟨r, c, hb, hc⟩ | ⟨r, c, hb, hc⟩)
      · refine ⟨r, c, ?_, hc⟩
        cases hn : rowsBit (y0 + 1) x0 rest r c
        · rw [rowsBit_cons, hn, hb]; rfl
        · rw [rowBit_rowsBit_disjoint hn] at hb
          exact absurd hb (by simp)
      · have hn := rowBit_rowsBit_disjoint (bits := bits) hb
        rw [Canvas.drawRow_cell, hn, Bool.xor_false] at hc
        exact ⟨r, c, by rw [rowsBit_cons, hn, hb]; rfl, hc⟩
    · rintro ⟨r, c, hb, hc⟩
      rw [rowsBit_cons] at hb
      cases hn : rowBit y0 x0 8 bits r c
      · rw [hn, Bool.false_xor] at hb
        exact Or.inr ⟨r, c, hb, by rw [Canvas.drawRow_cell, hn, Bool.xor_false, hc]⟩
      · exact Or.inl ⟨r, c, hn, hc⟩

end Sys2Proof.Machine
end

