-- ==== Sys2Proof/Laws/Memory.lean ====
section
/-! SUPPORT. Memory: read after write, and every operation keeps the canonical form. -/

namespace Sys2Proof.Machine

/-! ## The canonical form -/

theorem Memory.wfFrom_cons_iff (lo a : Nat) (b : Byte) (rest : Memory) :
    Memory.wfFrom lo ((a, b) :: rest) = true ↔
      lo ≤ a ∧ a < memSize ∧ b ≠ unlisted a ∧ Memory.wfFrom (a + 1) rest = true := by
  simp [Memory.wfFrom, and_assoc]

theorem Memory.wfFrom_mono {lo lo' : Nat} (h : lo' ≤ lo) :
    ∀ {m : Memory}, Memory.wfFrom lo m = true → Memory.wfFrom lo' m = true
  | [], _ => rfl
  | (_, _) :: _, hm => by
    rw [Memory.wfFrom_cons_iff] at hm ⊢
    exact ⟨h.trans hm.1, hm.2⟩

/-- An address below every key reads as what it holds at power-on. -/
theorem Memory.get_below : ∀ {m : Memory} {lo a : Nat}, Memory.wfFrom lo m = true → a < lo →
    m.get a = unlisted a
  | [], _, _, _, _ => rfl
  | (a', _) :: _, lo, a, hm, h => by
    rw [Memory.wfFrom_cons_iff] at hm
    have hne : ¬ a' = a := by omega
    rw [Memory.get, if_neg hne]
    exact Memory.get_below hm.2.2.2 (by omega)

theorem Memory.wfFrom_cons {lo a : Nat} (b : Byte) {rest : Memory} (hlo : lo ≤ a) (ha : a < memSize)
    (h : Memory.wfFrom (a + 1) rest = true) : Memory.wfFrom lo (Memory.cons a b rest) = true := by
  unfold Memory.cons
  split
  · exact Memory.wfFrom_mono (by omega) h
  · rename_i hb
    exact (Memory.wfFrom_cons_iff ..).2 ⟨hlo, ha, hb, h⟩

theorem Memory.get_cons {a : Nat} (b : Byte) {rest : Memory} (h : Memory.wfFrom (a + 1) rest = true)
    (q : Nat) : (Memory.cons a b rest).get q = if q = a then b else rest.get q := by
  unfold Memory.cons
  split
  · rename_i hb
    by_cases hq : q = a
    · subst hq
      rw [if_pos rfl, hb]
      exact Memory.get_below h (by omega)
    · rw [if_neg hq]
  · simp only [Memory.get, eq_comm]

theorem Memory.wfFrom_set {a : Nat} (b : Byte) (ha : a < memSize) :
    ∀ {m : Memory} {lo : Nat}, Memory.wfFrom lo m = true → lo ≤ a →
      Memory.wfFrom lo (m.set a b) = true
  | [], _, _, hlo => Memory.wfFrom_cons b hlo ha rfl
  | (a', b') :: rest, lo, hm, hlo => by
    have hm' := (Memory.wfFrom_cons_iff ..).1 hm
    unfold Memory.set
    split
    · rename_i hlt
      exact Memory.wfFrom_cons b hlo ha ((Memory.wfFrom_cons_iff ..).2 ⟨hlt, hm'.2⟩)
    · split
      · rename_i heq
        subst heq
        exact Memory.wfFrom_cons b hlo ha hm'.2.2.2
      · exact (Memory.wfFrom_cons_iff ..).2
          ⟨hm'.1, hm'.2.1, hm'.2.2.1, Memory.wfFrom_set b ha hm'.2.2.2 (by omega)⟩

theorem Memory.get_set {a : Nat} (b : Byte) (q : Nat) :
    ∀ {m : Memory} {lo : Nat}, Memory.wfFrom lo m = true →
      (m.set a b).get q = if q = a then b else m.get q
  | [], _, _ => Memory.get_cons b rfl q
  | (a', b') :: rest, lo, hm => by
    have hm' := (Memory.wfFrom_cons_iff ..).1 hm
    unfold Memory.set
    split
    · rename_i hlt
      exact Memory.get_cons b ((Memory.wfFrom_cons_iff ..).2 ⟨hlt, hm'.2⟩) q
    · split
      · rename_i heq
        subst heq
        rw [Memory.get_cons b hm'.2.2.2]
        by_cases hq : q = a
        · simp [hq]
        · have hne : ¬ a = q := fun e => hq e.symm
          simp [hq, Memory.get, hne]
      · rename_i hne
        simp only [Memory.get, Memory.get_set b q hm'.2.2.2]
        by_cases hq : q = a
        · have hne' : ¬ a' = a := fun e => hne e.symm
          simp [hq, hne']
        · simp [hq]

/-- Canonical memories that read the same everywhere are the same list. -/
theorem Memory.ext_of_get : ∀ {m m' : Memory} {lo : Nat}, Memory.wfFrom lo m = true →
    Memory.wfFrom lo m' = true → (∀ a, m.get a = m'.get a) → m = m'
  | [], [], _, _, _, _ => rfl
  | [], (a, b) :: rest, _, _, h', hget => by
    have := (Memory.wfFrom_cons_iff ..).1 h'
    exact absurd (by simpa [Memory.get] using (hget a).symm) this.2.2.1
  | (a, b) :: rest, [], _, h, _, hget => by
    have := (Memory.wfFrom_cons_iff ..).1 h
    exact absurd (by simpa [Memory.get] using hget a) this.2.2.1
  | (a, b) :: rest, (a', b') :: rest', _, h, h', hget => by
    have hm := (Memory.wfFrom_cons_iff ..).1 h
    have hm' := (Memory.wfFrom_cons_iff ..).1 h'
    have haa : a = a' := by
      by_contra hne
      rcases Nat.lt_or_gt_of_ne hne with hlt | hgt
      · have := hget a
        rw [Memory.get, if_pos rfl,
          Memory.get_below ((Memory.wfFrom_cons_iff ..).2 ⟨Nat.le_refl a', hm'.2⟩) hlt] at this
        exact hm.2.2.1 this
      · have := hget a'
        rw [Memory.get_below ((Memory.wfFrom_cons_iff ..).2 ⟨Nat.le_refl a, hm.2⟩) hgt, Memory.get,
          if_pos rfl] at this
        exact hm'.2.2.1 this.symm
    subst haa
    have hbb : b = b' := by simpa [Memory.get] using hget a
    subst hbb
    congr 1
    refine Memory.ext_of_get hm.2.2.2 hm'.2.2.2 (fun q => ?_)
    by_cases hq : a = q
    · subst hq
      rw [Memory.get_below hm.2.2.2 (by omega), Memory.get_below hm'.2.2.2 (by omega)]
    · simpa [Memory.get, hq] using hget q

/-- A canonical memory lists nothing at a key that is no address. -/
theorem Memory.get_of_large : ∀ {m : Memory} {lo a : Nat}, Memory.wfFrom lo m = true → memSize ≤ a →
    m.get a = unlisted a
  | [], _, _, _, _ => rfl
  | (a', b) :: rest, _, a, h, ha => by
    have hm := (Memory.wfFrom_cons_iff ..).1 h
    have hne : ¬ a' = a := by omega
    rw [Memory.get, if_neg hne, Memory.get_of_large hm.2.2.2 ha]

/-! ## One byte -/

theorem Memory.toNat_lt (a : Addr) : a.toNat < memSize := a.isLt

/-- Equal memories are equal lists: canonical memories with the same byte at every address are the same. -/
theorem Memory.ext_of_read {m m' : Memory} (h : m.wf = true) (h' : m'.wf = true)
    (hread : ∀ a : Addr, m.read a = m'.read a) : m = m' := by
  refine Memory.ext_of_get h h' (fun q => ?_)
  by_cases hq : q < memSize
  · have := hread (BitVec.ofNat 12 q)
    rwa [Memory.read, Memory.read, BitVec.toNat_ofNat, Nat.mod_eq_of_lt (by simpa [memSize] using hq)] at this
  · rw [Memory.get_of_large h (by omega), Memory.get_of_large h' (by omega)]

/-- Every write keeps the canonical form. -/
theorem Memory.wf_write {m : Memory} (h : m.wf = true) (a : Addr) (b : Byte) :
    (m.write a b).wf = true :=
  Memory.wfFrom_set b (Memory.toNat_lt a) h (Nat.zero_le _)

/-- A read after a write: the byte written at that address, every other byte as before. -/
theorem Memory.read_write {m : Memory} (h : m.wf = true) (a q : Addr) (b : Byte) :
    (m.write a b).read q = if q = a then b else m.read q := by
  have := Memory.get_set (a := a.toNat) b q.toNat h
  simpa [Memory.read, Memory.write, ← BitVec.toNat_inj] using this

/-! ## Runs of bytes -/

theorem addrOf_add (base j k : Nat) : addrOf (base + j) k = addrOf base (j + k) := by
  simp [addrOf, Nat.add_assoc]

/-- The addresses of a run of at most 4096 bytes are distinct (R56). -/
theorem addrOf_inj {base j k : Nat} (hj : j < memSize) (hk : k < memSize)
    (h : addrOf base j = addrOf base k) : j = k := by
  have h' := congrArg BitVec.toNat h
  simp only [addrOf, BitVec.toNat_ofNat] at h'
  simp only [memSize] at hj hk
  omega

theorem Memory.wf_writeRun : ∀ {m : Memory} (base : Nat) (bs : List Byte), m.wf = true →
    (m.writeRun base bs).wf = true
  | _, _, [], h => h
  | _, base, b :: bs, h => Memory.wf_writeRun (base + 1) bs (Memory.wf_write h (addrOf base 0) b)

/-- A run leaves every byte outside it alone. -/
theorem Memory.read_writeRun_outside : ∀ {m : Memory} (base : Nat) (bs : List Byte) (q : Addr),
    m.wf = true → (∀ k < bs.length, q ≠ addrOf base k) → (m.writeRun base bs).read q = m.read q
  | _, _, [], _, _, _ => rfl
  | m, base, b :: bs, q, h, hq => by
    have h0 : q ≠ addrOf base 0 := hq 0 (by simp)
    rw [Memory.writeRun, Memory.read_writeRun_outside (base + 1) bs q (Memory.wf_write h _ b),
      Memory.read_write h, if_neg h0]
    intro k hk
    rw [addrOf_add, Nat.add_comm 1 k]
    exact hq (k + 1) (by simpa using hk)

/-- Byte k of a run of at most 4096 bytes reads as it was written. -/
theorem Memory.read_writeRun_at : ∀ {m : Memory} (base : Nat) (bs : List Byte) (k : Nat)
    (hk : k < bs.length), m.wf = true → bs.length ≤ memSize →
    (m.writeRun base bs).read (addrOf base k) = bs[k]
  | m, base, b :: bs, 0, _, h, hlen => by
    have hout : ∀ k < bs.length, addrOf base 0 ≠ addrOf (base + 1) k := by
      intro k hk e
      rw [addrOf_add] at e
      have := addrOf_inj (by simp [memSize]) (by simp at hlen; omega) e
      omega
    rw [Memory.writeRun,
      Memory.read_writeRun_outside (base + 1) bs _ (Memory.wf_write h _ b) hout,
      Memory.read_write h, if_pos rfl]
    rfl
  | m, base, b :: bs, k + 1, hk, h, hlen => by
    have hk' : k < bs.length := by simpa using hk
    have e : addrOf base (k + 1) = addrOf (base + 1) k := by rw [addrOf_add, Nat.add_comm]
    rw [Memory.writeRun, e, Memory.read_writeRun_at (base + 1) bs k hk' (Memory.wf_write h _ b)
      (by simp at hlen; omega)]
    rfl

/-! ## A memory from its contents -/

theorem Memory.wfFrom_filterMap (f : Nat → Byte) : ∀ (n lo : Nat), lo + n ≤ memSize →
    Memory.wfFrom lo ((List.range' lo n).filterMap
      (fun a => if f a = unlisted a then none else some (a, f a))) = true
  | 0, _, _ => rfl
  | n + 1, lo, h => by
    rw [List.range'_succ, List.filterMap_cons]
    have ih := Memory.wfFrom_filterMap f n (lo + 1) (by omega)
    by_cases hb : f lo = unlisted lo
    · simpa [hb] using Memory.wfFrom_mono (Nat.le_succ lo) ih
    · simpa [hb] using (Memory.wfFrom_cons_iff ..).2 ⟨Nat.le_refl lo, by omega, hb, ih⟩

theorem Memory.get_filterMap (f : Nat → Byte) (q : Nat) : ∀ (n lo : Nat),
    Memory.get ((List.range' lo n).filterMap
      (fun a => if f a = unlisted a then none else some (a, f a))) q =
        if lo ≤ q ∧ q < lo + n then f q else unlisted q
  | 0, lo => by
    simp [Memory.get]
  | n + 1, lo => by
    rw [List.range'_succ, List.filterMap_cons]
    have ih := Memory.get_filterMap f q n (lo + 1)
    by_cases hb : f lo = unlisted lo
    · simp only [hb, if_true]
      rw [ih]
      by_cases hq : q = lo
      · subst hq
        have h1 : ¬ (q + 1 ≤ q ∧ q < q + 1 + n) := by omega
        have h2 : q ≤ q ∧ q < q + (n + 1) := by omega
        rw [if_neg h1, if_pos h2, hb]
      · exact if_congr (by omega) rfl rfl
    · simp only [hb, if_false, Memory.get]
      by_cases hq : lo = q
      · subst hq
        have h2 : lo ≤ lo ∧ lo < lo + (n + 1) := by omega
        rw [if_pos rfl, if_pos h2]
      · rw [if_neg hq, ih]
        exact if_congr (by omega) rfl rfl

theorem Memory.ofContents_eq (f : Nat → Byte) : Memory.ofContents f =
    (List.range memSize).filterMap (fun a => if f a = unlisted a then none else some (a, f a)) := by
  unfold Memory.ofContents
  with_reducible rfl

theorem Memory.wf_ofContents (f : Nat → Byte) : (Memory.ofContents f).wf = true := by
  have h : ∀ n, n ≤ memSize → Memory.wf ((List.range n).filterMap
      (fun a => if f a = unlisted a then none else some (a, f a))) = true := by
    intro n hn
    have h' := Memory.wfFrom_filterMap f n 0 (by omega)
    rw [← List.range_eq_range'] at h'
    exact h'
  rw [Memory.ofContents_eq]
  exact h memSize (Nat.le_refl _)

theorem Memory.read_ofContents (f : Nat → Byte) (a : Addr) :
    (Memory.ofContents f).read a = f a.toNat := by
  have h : ∀ n, a.toNat < n → Memory.get ((List.range n).filterMap
      (fun a => if f a = unlisted a then none else some (a, f a))) a.toNat = f a.toNat := by
    intro n hn
    have h' := Memory.get_filterMap f a.toNat n 0
    rw [← List.range_eq_range', if_pos (by omega)] at h'
    exact h'
  rw [Memory.ofContents_eq, Memory.read]
  exact h memSize (Memory.toNat_lt a)

theorem State.reset_mem_wf : State.reset.mem.wf = true := rfl

/-! ## The font (20_memory.md R58) -/

/-- Byte j of item d of a list of glyphs. -/
theorem glyphBytes_getElem? : ∀ (gs : List Glyph) (d j : Nat), j < 5 →
    (gs.flatMap (fun g => g.toList))[5 * d + j]? = gs[d]?.bind (fun g => g.toList[j]?)
  | [], d, j, _ => by simp
  | g :: gs, 0, j, hj => by
    rw [List.flatMap_cons, List.getElem?_append_left (by simp; omega)]
    simp
  | g :: gs, d + 1, j, hj => by
    rw [List.flatMap_cons, List.getElem?_append_right (by simp; omega), List.getElem?_cons_succ,
      ← glyphBytes_getElem? gs d j hj]
    congr 1
    simp
    omega

/-- R58: row j of glyph d stands at 5d + j. -/
theorem fontBytes_getElem? (f : Font) (d : Fin 16) (j : Fin 5) :
    (fontBytes f)[5 * d.val + j.val]? = some f[d][j] := by
  rw [fontBytes, glyphBytes_getElem? _ _ _ j.isLt]
  simp

/-- The font fills 0x000 to 0x04F. -/
theorem fontBytes_length (f : Font) : (fontBytes f).length = fontSize := by
  simp [fontBytes, fontSize, List.length_flatMap]

end Sys2Proof.Machine
end

