-- ==== Sys2Proof/Laws/Exec.lean ====
section
/-! SUPPORT. What the execute phase can do, part by part of the state, and the sprite of Dxyn as the claims write it. -/

namespace Sys2Proof.Machine

/-! ## Frames -/

theorem State.samePart_refl (s : State) (p : Part) : s.samePart s p := by
  cases p <;> simp [State.samePart]

theorem State.samePart_trans {s t u : State} {p : Part} (h : s.samePart t p) (h' : t.samePart u p) :
    s.samePart u p := by
  cases p <;> simp_all [State.samePart]

theorem State.unchangedBut_trans {s t u : State} {l : List Part} (h : s.unchangedBut t l)
    (h' : t.unchangedBut u l) : s.unchangedBut u l :=
  fun p hp => State.samePart_trans (h p hp) (h' p hp)

theorem State.unchangedBut_mono {s t : State} {l l' : List Part} (hl : ∀ p ∈ l, p ∈ l')
    (h : s.unchangedBut t l) : s.unchangedBut t l' :=
  fun p hp => h p (fun hpl => hp (hl p hpl))

/-! ## The frame of each update -/

theorem State.frame_setV (s : State) (r : RegIx) (b : Byte) : s.unchangedBut (s.setV r b) [.regs] := by
  intro p hp
  cases p <;> first
    | exact (hp (List.mem_singleton.2 rfl)).elim
    | rfl
    | exact ⟨rfl, rfl, rfl⟩
    | exact fun _ => rfl
    | exact fun _ _ => rfl

theorem State.frame_setRegs (s : State) (v : Vector Byte 16) : s.unchangedBut (s.setRegs v) [.regs] := by
  intro p hp
  cases p <;> first
    | exact (hp (List.mem_singleton.2 rfl)).elim
    | rfl
    | exact ⟨rfl, rfl, rfl⟩
    | exact fun _ => rfl
    | exact fun _ _ => rfl

theorem State.frame_setI (s : State) (w : Word) : s.unchangedBut (s.setI w) [.index] := by
  intro p hp
  cases p <;> first
    | exact (hp (List.mem_singleton.2 rfl)).elim
    | rfl
    | exact ⟨rfl, rfl, rfl⟩
    | exact fun _ => rfl
    | exact fun _ _ => rfl

theorem State.frame_setPc (s : State) (w : Word) : s.unchangedBut (s.setPc w) [.pc] := by
  intro p hp
  cases p <;> first
    | exact (hp (List.mem_singleton.2 rfl)).elim
    | rfl
    | exact ⟨rfl, rfl, rfl⟩
    | exact fun _ => rfl
    | exact fun _ _ => rfl

theorem State.frame_skipIf (s : State) (b : Bool) : s.unchangedBut (s.skipIf b) [.pc] := by
  intro p hp
  cases p <;> first
    | exact (hp (List.mem_singleton.2 rfl)).elim
    | rfl
    | exact ⟨rfl, rfl, rfl⟩
    | exact fun _ => rfl
    | exact fun _ _ => rfl

theorem State.frame_advance (s : State) : s.unchangedBut (s.advance) [.pc] := by
  intro p hp
  cases p <;> first
    | exact (hp (List.mem_singleton.2 rfl)).elim
    | rfl
    | exact ⟨rfl, rfl, rfl⟩
    | exact fun _ => rfl
    | exact fun _ _ => rfl

theorem State.frame_setStack (s : State) (k : List Word) : s.unchangedBut (s.setStack k) [.stack] := by
  intro p hp
  cases p <;> first
    | exact (hp (List.mem_singleton.2 rfl)).elim
    | rfl
    | exact ⟨rfl, rfl, rfl⟩
    | exact fun _ => rfl
    | exact fun _ _ => rfl

theorem State.frame_setDt (s : State) (b : Byte) : s.unchangedBut (s.setDt b) [.dt] := by
  intro p hp
  cases p <;> first
    | exact (hp (List.mem_singleton.2 rfl)).elim
    | rfl
    | exact ⟨rfl, rfl, rfl⟩
    | exact fun _ => rfl
    | exact fun _ _ => rfl

theorem State.frame_setSt (s : State) (b : Byte) : s.unchangedBut (s.setSt b) [.st] := by
  intro p hp
  cases p <;> first
    | exact (hp (List.mem_singleton.2 rfl)).elim
    | rfl
    | exact ⟨rfl, rfl, rfl⟩
    | exact fun _ => rfl
    | exact fun _ _ => rfl

theorem State.frame_setFb (s : State) (f : FrameBuffer) : s.unchangedBut (s.setFb f) [.fb] := by
  intro p hp
  cases p <;> first
    | exact (hp (List.mem_singleton.2 rfl)).elim
    | rfl
    | exact ⟨rfl, rfl, rfl⟩
    | exact fun _ => rfl

theorem State.frame_setMem (s : State) (m : Memory) : s.unchangedBut (s.setMem m) [.mem] := by
  intro p hp
  cases p <;> first
    | exact (hp (List.mem_singleton.2 rfl)).elim
    | rfl
    | exact ⟨rfl, rfl, rfl⟩
    | exact fun _ => rfl
    | exact fun _ _ => rfl

theorem State.frame_setWait (s : State) (w : Option RegIx) : s.unchangedBut (s.setWait w) [.wait] := by
  intro p hp
  cases p <;> first
    | exact (hp (List.mem_singleton.2 rfl)).elim
    | rfl
    | exact ⟨rfl, rfl, rfl⟩
    | exact fun _ => rfl
    | exact fun _ _ => rfl

theorem State.frame_setFault (s : State) (f : Option Fault) : s.unchangedBut (s.setFault f) [.fault] := by
  intro p hp
  cases p <;> first
    | exact (hp (List.mem_singleton.2 rfl)).elim
    | rfl
    | exact ⟨rfl, rfl, rfl⟩
    | exact fun _ => rfl
    | exact fun _ _ => rfl

theorem State.frame_setHost (s : State) (l : List HostOp) : s.unchangedBut (s.setHost l) [.host] := by
  intro p hp
  cases p <;> first
    | exact (hp (List.mem_singleton.2 rfl)).elim
    | rfl
    | exact ⟨rfl, rfl, rfl⟩
    | exact fun _ => rfl
    | exact fun _ _ => rfl

theorem State.frame_emit (s : State) (e : Event) : s.unchangedBut (s.emit e) [.events] := by
  intro p hp
  cases p <;> first
    | exact (hp (List.mem_singleton.2 rfl)).elim
    | rfl
    | exact ⟨rfl, rfl, rfl⟩
    | exact fun _ => rfl
    | exact fun _ _ => rfl

theorem State.frame_setInputs (s : State) (k : KeyLevels) (b : Byte) : s.unchangedBut (s.setInputs k b) [.inputs] := by
  intro p hp
  cases p <;> first
    | exact (hp (List.mem_singleton.2 rfl)).elim
    | rfl
    | exact ⟨rfl, rfl, rfl⟩
    | exact fun _ => rfl
    | exact fun _ _ => rfl

/-- Two updates in a row change what either changes. -/
theorem State.frame_two {s t u : State} {l l' : List Part} (h : s.unchangedBut t l)
    (h' : t.unchangedBut u l') : s.unchangedBut u (l ++ l') :=
  State.unchangedBut_trans (State.unchangedBut_mono (fun _ hp => List.mem_append_left _ hp) h)
    (State.unchangedBut_mono (fun _ hp => List.mem_append_right _ hp) h')

theorem State.frame_resultThenFlag (s : State) (x : RegIx) (a b : Byte) :
    s.unchangedBut (s.resultThenFlag x a b) [.regs] :=
  State.unchangedBut_trans (s.frame_setV x a) ((s.setV x a).frame_setV VF b)

theorem State.frame_flagThenResult (s : State) (x : RegIx) (a b : Byte) :
    s.unchangedBut (s.flagThenResult x a b) [.regs] :=
  State.unchangedBut_trans (s.frame_setV VF a) ((s.setV VF a).frame_setV x b)

/-! ## Skips and faults -/

/-- Ex9E and ExA1 either skip by the key's level or latch the key number. -/
theorem execSkp_cases (x : RegIx) (s : State) :
    (∃ b, s.held x = some b ∧ execSkp x s = .next (s.skipIf b)) ∨
      (s.held x = none ∧ execSkp x s = .next (s.setFault (some (.keyIndexOutOfRange (s.readV x))))) := by
  cases h : s.held x with
  | none => exact Or.inr ⟨rfl, by simp [execSkp, h, raise]⟩
  | some b => exact Or.inl ⟨b, rfl, by simp [execSkp, h]⟩

theorem execSknp_cases (x : RegIx) (s : State) :
    (∃ b, s.held x = some b ∧ execSknp x s = .next (s.skipIf (!b))) ∨
      (s.held x = none ∧ execSknp x s = .next (s.setFault (some (.keyIndexOutOfRange (s.readV x))))) := by
  cases h : s.held x with
  | none => exact Or.inr ⟨rfl, by simp [execSknp, h, raise]⟩
  | some b => exact Or.inl ⟨b, rfl, by simp [execSknp, h]⟩

/-- The key lookup raises only under `KEY_OOR = fault` and only for numbers of 16 or more (R196). -/
theorem held_none {x : RegIx} {s : State} (h : s.held x = none) :
    s.params.keyOor = .fault ∧ 16 ≤ (s.readV x).toNat := by
  unfold State.held heldKey at h
  split at h
  · simp at h
  · split at h
    · simp at h
    · simp at h
    · exact ⟨by assumption, by omega⟩

/-- 00EE pops or latches `StackUnderflow`. -/
theorem execRet_cases (s : State) :
    (∃ a, s.stack.getLast? = some a ∧ execRet s = .next ((s.setStack s.stack.dropLast).setPc a)) ∨
      (s.stack = [] ∧ execRet s = .next (s.setFault (some .stackUnderflow))) := by
  cases h : s.stack.getLast? with
  | none => exact Or.inr ⟨List.getLast?_eq_none_iff.1 h, by simp [execRet, h, raise]⟩
  | some a => exact Or.inl ⟨a, rfl, by simp [execRet, h]⟩

/-- 2nnn pushes and jumps or latches `StackOverflow`. -/
theorem execCall_cases (nnn : Addr) (s : State) :
    (s.stackFull = false ∧
      execCall nnn s = .next ((s.setStack (s.stack ++ [s.pc])).setPc (nnn.setWidth 16))) ∨
    (s.stackFull = true ∧ execCall nnn s = .next (s.setFault (some .stackOverflow))) := by
  cases h : s.stackFull
  · exact Or.inl ⟨rfl, by simp [execCall, h]⟩
  · exact Or.inr ⟨rfl, by simp [execCall, h, raise]⟩

/-! ## The execute phase as a whole -/

/-- The parts of the state that the execute phase of a form may change. -/
def execChanges : Instr → List Part
  | .cls => [.fb, .events]
  | .ret | .call _ => [.pc, .stack, .fault]
  | .jp _ | .jpV0 _ | .seImm _ _ | .sneImm _ _ | .seReg _ _ | .sneReg _ _ => [.pc]
  | .skp _ | .sknp _ => [.pc, .fault]
  | .ldImm _ _ | .addImm _ _ | .ldReg _ _ | .orReg _ _ | .andReg _ _ | .xorReg _ _ | .addReg _ _
  | .subReg _ _ | .shr _ _ | .subnReg _ _ | .shl _ _ | .rnd _ _ | .ldVxDt _ => [.regs]
  | .ldI _ | .addI _ | .ldF _ => [.index]
  | .drw _ _ _ => [.regs, .fb]
  | .ldVxK _ => [.wait]
  | .ldDtVx _ => [.dt]
  | .ldStVx _ => [.st]
  | .ldB _ => [.mem]
  | .storeRegs _ => [.mem, .index]
  | .loadRegs _ => [.regs, .index]

theorem State.frame_raise (s : State) (f : Fault) {l : List Part} (h : Part.fault ∈ l) :
    s.unchangedBut (s.setFault (some f)) l :=
  State.unchangedBut_mono (by simp [h]) (s.frame_setFault (some f))

theorem State.frame_skip (s : State) (b : Bool) {l : List Part} (h : Part.pc ∈ l) :
    s.unchangedBut (s.skipIf b) l :=
  State.unchangedBut_mono (by simp [h]) (s.frame_skipIf b)

/-- Every form answers a next state, and changes only the parts `execChanges` lists. -/
theorem exec_next (i : Instr) (s : State) :
    ∃ t, exec i s = .next t ∧ s.unchangedBut t (execChanges i) := by
  cases i with
  | cls => exact ⟨_, rfl, State.frame_two (s.frame_setFb _) (State.frame_emit _ _)⟩
  | ret =>
    rcases execRet_cases s with ⟨a, -, h⟩ | ⟨-, h⟩
    · exact ⟨_, h, State.unchangedBut_mono (by simp [execChanges])
        (State.frame_two (s.frame_setStack _) (State.frame_setPc _ a))⟩
    · exact ⟨_, h, s.frame_raise _ (by simp [execChanges])⟩
  | jp nnn => exact ⟨_, rfl, s.frame_setPc _⟩
  | call nnn =>
    rcases execCall_cases nnn s with ⟨-, h⟩ | ⟨-, h⟩
    · exact ⟨_, h, State.unchangedBut_mono (by simp [execChanges])
        (State.frame_two (s.frame_setStack _) (State.frame_setPc _ _))⟩
    · exact ⟨_, h, s.frame_raise _ (by simp [execChanges])⟩
  | seImm x kk => exact ⟨_, rfl, s.frame_skipIf _⟩
  | sneImm x kk => exact ⟨_, rfl, s.frame_skipIf _⟩
  | seReg x y => exact ⟨_, rfl, s.frame_skipIf _⟩
  | ldImm x kk => exact ⟨_, rfl, s.frame_setV x _⟩
  | addImm x kk => exact ⟨_, rfl, s.frame_setV x _⟩
  | ldReg x y => exact ⟨_, rfl, s.frame_setV x _⟩
  | orReg x y => exact ⟨_, rfl, s.frame_resultThenFlag x _ _⟩
  | andReg x y => exact ⟨_, rfl, s.frame_resultThenFlag x _ _⟩
  | xorReg x y => exact ⟨_, rfl, s.frame_resultThenFlag x _ _⟩
  | addReg x y => exact ⟨_, rfl, s.frame_flagThenResult x _ _⟩
  | subReg x y => exact ⟨_, rfl, s.frame_flagThenResult x _ _⟩
  | shr x y => exact ⟨_, rfl, s.frame_flagThenResult x _ _⟩
  | subnReg x y => exact ⟨_, rfl, s.frame_flagThenResult x _ _⟩
  | shl x y => exact ⟨_, rfl, s.frame_flagThenResult x _ _⟩
  | sneReg x y => exact ⟨_, rfl, s.frame_skipIf _⟩
  | ldI nnn => exact ⟨_, rfl, s.frame_setI _⟩
  | jpV0 nnn => exact ⟨_, rfl, s.frame_setPc _⟩
  | rnd x kk => exact ⟨_, rfl, s.frame_setV x _⟩
  | drw x y n =>
    exact ⟨_, rfl, State.unchangedBut_mono (by simp [execChanges])
      (State.frame_two (s.frame_setFb _) (State.frame_setV _ VF _))⟩
  | skp x =>
    rcases execSkp_cases x s with ⟨b, -, h⟩ | ⟨-, h⟩
    · exact ⟨_, h, s.frame_skip _ (by simp [execChanges])⟩
    · exact ⟨_, h, s.frame_raise _ (by simp [execChanges])⟩
  | sknp x =>
    rcases execSknp_cases x s with ⟨b, -, h⟩ | ⟨-, h⟩
    · exact ⟨_, h, s.frame_skip _ (by simp [execChanges])⟩
    · exact ⟨_, h, s.frame_raise _ (by simp [execChanges])⟩
  | ldVxDt x => exact ⟨_, rfl, s.frame_setV x _⟩
  | ldVxK x => exact ⟨_, rfl, s.frame_setWait _⟩
  | ldDtVx x => exact ⟨_, rfl, s.frame_setDt _⟩
  | ldStVx x => exact ⟨_, rfl, s.frame_setSt _⟩
  | addI x => exact ⟨_, rfl, s.frame_setI _⟩
  | ldF x => exact ⟨_, rfl, s.frame_setI _⟩
  | ldB x => exact ⟨_, rfl, s.frame_setMem _⟩
  | storeRegs x => exact ⟨_, rfl, State.frame_two (s.frame_setMem _) (State.frame_setI _ _)⟩
  | loadRegs x => exact ⟨_, rfl, State.frame_two (s.frame_setRegs _) (State.frame_setI _ _)⟩

/-- The sprite bits of Dxyn as the claims write them (`State.spriteBit`). -/
theorem State.rowsBit_sprite (s : State) (x y : RegIx) (n : Nat) (r : Fin 32) (c : Fin 64) :
    rowsBit (s.startRow y) (s.startColumn x) (s.sprite n) r c = s.spriteBit x y n r c := by
  have hlen : (s.sprite n).length = n := by simp [State.sprite]
  unfold rowsBit State.spriteBit State.startRow State.startColumn
  rw [hlen]
  by_cases h : (s.readV y).toNat % 32 ≤ r.val ∧ r.val < (s.readV y).toNat % 32 + n ∧
      (s.readV x).toNat % 64 ≤ c.val ∧ c.val < (s.readV x).toNat % 64 + 8
  · have : r.val - (s.readV y).toNat % 32 < n := by omega
    simp [State.sprite, this]
  · simp only [decide_eq_false h, Bool.false_and]

end Sys2Proof.Machine
end

