-- ==== Sys2Proof/Laws/HostOps.lean ====
section
/-! SUPPORT. What `tick`, `reset` and power-on leave (60_exceptions.md R223; 70_reset_and_hazards.md R240 to R243). -/

namespace Sys2Proof.Machine

/-- A timer after a tick (R223; 42_alu.md R143: saturates at 0). -/
theorem countDown_toNat (t : Byte) : (countDown t).toNat = t.toNat - 1 := by
  unfold countDown
  split
  · rw [BitVec.toNat_ofNat]
    omega
  · omega

section hardReset
variable (s : State)

@[simp] theorem hardReset_readV (r : RegIx) : (hardReset s).readV r = 0x00 := by
  simp [hardReset, State.readV]

@[simp] theorem hardReset_cell (r : Fin 32) (c : Fin 64) : (hardReset s).fb.cell r c = false :=
  FrameBuffer.cell_clear r c

@[simp] theorem hardReset_i : (hardReset s).i = 0x0000 := rfl
@[simp] theorem hardReset_pc : (hardReset s).pc = progBase := rfl
@[simp] theorem hardReset_stack : (hardReset s).stack = [] := rfl
@[simp] theorem hardReset_dt : (hardReset s).dt = 0x00 := rfl
@[simp] theorem hardReset_st : (hardReset s).st = 0x00 := rfl
@[simp] theorem hardReset_wait : (hardReset s).wait = none := rfl
@[simp] theorem hardReset_fault : (hardReset s).fault = none := rfl
@[simp] theorem hardReset_params : (hardReset s).params = s.params := rfl
@[simp] theorem hardReset_keys : (hardReset s).keys = s.keys := rfl
@[simp] theorem hardReset_rnd : (hardReset s).rnd = s.rnd := rfl
@[simp] theorem hardReset_samples : (hardReset s).samples = s.samples := rfl
@[simp] theorem hardReset_host : (hardReset s).host = s.host := rfl
@[simp] theorem hardReset_events : (hardReset s).events = s.events := rfl

theorem hardReset_mem : (hardReset s).mem = s.mem.writeRun 0 (fontBytes s.params.font) := rfl

end hardReset

theorem hardReset_mem_wf {s : State} (h : s.mem.wf = true) : (hardReset s).mem.wf = true :=
  Memory.wf_writeRun 0 (fontBytes s.params.font) h

/-- `reset` writes the font of the parameters (R241, R243). -/
theorem hardReset_readByte_font {s : State} (h : s.mem.wf = true) (d : Fin 16) (j : Fin 5) :
    (hardReset s).readByte (BitVec.ofNat 12 (5 * d.val + j.val)) = s.params.font[d][j] := by
  have hl := fontBytes_length s.params.font
  have hk : 5 * d.val + j.val < (fontBytes s.params.font).length := by
    rw [hl]
    simp only [fontSize]
    omega
  have hr := Memory.read_writeRun_at 0 (fontBytes s.params.font) _ hk h
    (by rw [hl]; simp [fontSize, memSize])
  have hb := fontBytes_getElem? s.params.font d j
  rw [List.getElem?_eq_getElem hk] at hb
  rw [addrOf, Nat.zero_add] at hr
  exact hr.trans (Option.some.inj hb)

/-- `reset` leaves memory from 0x050 up alone (R242). -/
theorem hardReset_readByte_above {s : State} (h : s.mem.wf = true) {a : Addr} (ha : 0x50 ≤ a.toNat) :
    (hardReset s).readByte a = s.readByte a := by
  refine Memory.read_writeRun_outside 0 _ a h ?_
  intro k hk e
  rw [fontBytes_length] at hk
  subst e
  simp only [addrOf, fontSize, BitVec.toNat_ofNat] at *
  omega

/-! ## Power-on -/

theorem powerOn_mem (p : Params) (memInit : Nat → Byte) : (powerOn p memInit).mem =
    (Memory.ofContents (fun a => if a < fontSize then unlisted a else memInit a)).writeRun 0
      (fontBytes p.font) := by
  unfold powerOn
  rw [hardReset_mem]

theorem powerOn_mem_wf (p : Params) (memInit : Nat → Byte) : (powerOn p memInit).mem.wf = true := by
  rw [powerOn_mem]
  exact Memory.wf_writeRun 0 (fontBytes p.font) (Memory.wf_ofContents _)

end Sys2Proof.Machine
end

