-- ==== Sys2Proof/Laws/PerInstr.lean ====
section
/-! SUPPORT. One lemma per form: the word that encodes a well-formed instruction is selected by the instruction's own row of 30_encoding.md R75. -/

namespace Sys2Proof.Laws.WordFitsRow

/-- The word of a well-formed instruction satisfies the (mask, match) test of the row that R75 gives its form. -/
def Statement (i : Instr) : Prop :=
  i.wellFormed = true → ∃ r, opcodeRows[i.rowIndex]? = some r ∧ r.selects (encode i) = true

/-! ## One lemma per mask (R75) -/

/-- A tested nibble. -/
theorem nibble_kept {v m w : BitVec 4} (hm : m = 0xF#4) (h : v = w) : v &&& m = w := by
  subst hm h
  revert v
  decide

/-- A free nibble. -/
theorem nibble_free {v m w : BitVec 4} (hm : m = 0x0#4) (h : w = 0x0#4) : v &&& m = w := by
  subst hm h
  revert v
  decide

/-- Mask 0xF000: the major is tested, the twelve low bits are free. -/
theorem selects_major {op p : Word} (hm : majorField op = majorField p)
    (hp : p.extractLsb' 8 4 = 0x0#4 ∧ p.extractLsb' 4 4 = 0x0#4 ∧ nField p = 0x0#4) :
    (OpcodeRow.mk 0xF000 p).selects op = true := by
  refine (selects_iff_nibbles _ _).2 ⟨?_, ?_, ?_, ?_⟩
  · exact nibble_kept (show majorField 0xF000#16 = 0xF#4 by decide) hm
  · exact nibble_free (show (0xF000#16).extractLsb' 8 4 = 0x0#4 by decide) hp.1
  · exact nibble_free (show (0xF000#16).extractLsb' 4 4 = 0x0#4 by decide) hp.2.1
  · exact nibble_free (show nField 0xF000#16 = 0x0#4 by decide) hp.2.2

/-- Mask 0xF00F: the major and the low nibble are tested. -/
theorem selects_minor {op p : Word} (hm : majorField op = majorField p) (hn : nField op = nField p)
    (hp : p.extractLsb' 8 4 = 0x0#4 ∧ p.extractLsb' 4 4 = 0x0#4) :
    (OpcodeRow.mk 0xF00F p).selects op = true := by
  refine (selects_iff_nibbles _ _).2 ⟨?_, ?_, ?_, ?_⟩
  · exact nibble_kept (show majorField 0xF00F#16 = 0xF#4 by decide) hm
  · exact nibble_free (show (0xF00F#16).extractLsb' 8 4 = 0x0#4 by decide) hp.1
  · exact nibble_free (show (0xF00F#16).extractLsb' 4 4 = 0x0#4 by decide) hp.2
  · exact nibble_kept (show nField 0xF00F#16 = 0xF#4 by decide) hn

/-- Mask 0xF0FF: the major and the low byte are tested. -/
theorem selects_low {op p : Word} (hm : majorField op = majorField p) (hk : kkField op = kkField p)
    (hp : p.extractLsb' 8 4 = 0x0#4) : (OpcodeRow.mk 0xF0FF p).selects op = true := by
  have h := (kkField_eq_iff op (kkField p)).1 hk
  have h' := (kkField_eq_iff p (kkField p)).1 rfl
  refine (selects_iff_nibbles _ _).2 ⟨?_, ?_, ?_, ?_⟩
  · exact nibble_kept (show majorField 0xF0FF#16 = 0xF#4 by decide) hm
  · exact nibble_free (show (0xF0FF#16).extractLsb' 8 4 = 0x0#4 by decide) hp
  · exact nibble_kept (show (0xF0FF#16).extractLsb' 4 4 = 0xF#4 by decide) (h.1.trans h'.1.symm)
  · exact nibble_kept (show nField 0xF0FF#16 = 0xF#4 by decide) (h.2.trans h'.2.symm)

/-! ## One lemma per form -/

theorem cls : Statement .cls :=
  fun _ => ⟨_, rfl, rfl⟩

theorem ret : Statement .ret :=
  fun _ => ⟨_, rfl, rfl⟩

theorem jp (nnn : Addr) : Statement (.jp nnn) :=
  fun _ => ⟨_, rfl, selects_major (majorField_encodeNNN 0x1#4 nnn) (by decide)⟩

theorem call (nnn : Addr) : Statement (.call nnn) :=
  fun _ => ⟨_, rfl, selects_major (majorField_encodeNNN 0x2#4 nnn) (by decide)⟩

theorem seImm (x : RegIx) (kk : Byte) : Statement (.seImm x kk) :=
  fun _ => ⟨_, rfl, selects_major (majorField_encodeXKK 0x3#4 x kk) (by decide)⟩

theorem sneImm (x : RegIx) (kk : Byte) : Statement (.sneImm x kk) :=
  fun _ => ⟨_, rfl, selects_major (majorField_encodeXKK 0x4#4 x kk) (by decide)⟩

theorem seReg (x y : RegIx) : Statement (.seReg x y) :=
  fun _ => ⟨_, rfl, selects_minor (majorField_encodeXYN 0x5#4 0x0#4 x y)
    (nField_encodeXYN 0x5#4 0x0#4 x y) (by decide)⟩

theorem ldImm (x : RegIx) (kk : Byte) : Statement (.ldImm x kk) :=
  fun _ => ⟨_, rfl, selects_major (majorField_encodeXKK 0x6#4 x kk) (by decide)⟩

theorem addImm (x : RegIx) (kk : Byte) : Statement (.addImm x kk) :=
  fun _ => ⟨_, rfl, selects_major (majorField_encodeXKK 0x7#4 x kk) (by decide)⟩

theorem ldReg (x y : RegIx) : Statement (.ldReg x y) :=
  fun _ => ⟨_, rfl, selects_minor (majorField_encodeXYN 0x8#4 0x0#4 x y)
    (nField_encodeXYN 0x8#4 0x0#4 x y) (by decide)⟩

theorem orReg (x y : RegIx) : Statement (.orReg x y) :=
  fun _ => ⟨_, rfl, selects_minor (majorField_encodeXYN 0x8#4 0x1#4 x y)
    (nField_encodeXYN 0x8#4 0x1#4 x y) (by decide)⟩

theorem andReg (x y : RegIx) : Statement (.andReg x y) :=
  fun _ => ⟨_, rfl, selects_minor (majorField_encodeXYN 0x8#4 0x2#4 x y)
    (nField_encodeXYN 0x8#4 0x2#4 x y) (by decide)⟩

theorem xorReg (x y : RegIx) : Statement (.xorReg x y) :=
  fun _ => ⟨_, rfl, selects_minor (majorField_encodeXYN 0x8#4 0x3#4 x y)
    (nField_encodeXYN 0x8#4 0x3#4 x y) (by decide)⟩

theorem addReg (x y : RegIx) : Statement (.addReg x y) :=
  fun _ => ⟨_, rfl, selects_minor (majorField_encodeXYN 0x8#4 0x4#4 x y)
    (nField_encodeXYN 0x8#4 0x4#4 x y) (by decide)⟩

theorem subReg (x y : RegIx) : Statement (.subReg x y) :=
  fun _ => ⟨_, rfl, selects_minor (majorField_encodeXYN 0x8#4 0x5#4 x y)
    (nField_encodeXYN 0x8#4 0x5#4 x y) (by decide)⟩

theorem shr (x y : RegIx) : Statement (.shr x y) :=
  fun _ => ⟨_, rfl, selects_minor (majorField_encodeXYN 0x8#4 0x6#4 x y)
    (nField_encodeXYN 0x8#4 0x6#4 x y) (by decide)⟩

theorem subnReg (x y : RegIx) : Statement (.subnReg x y) :=
  fun _ => ⟨_, rfl, selects_minor (majorField_encodeXYN 0x8#4 0x7#4 x y)
    (nField_encodeXYN 0x8#4 0x7#4 x y) (by decide)⟩

theorem shl (x y : RegIx) : Statement (.shl x y) :=
  fun _ => ⟨_, rfl, selects_minor (majorField_encodeXYN 0x8#4 0xE#4 x y)
    (nField_encodeXYN 0x8#4 0xE#4 x y) (by decide)⟩

theorem sneReg (x y : RegIx) : Statement (.sneReg x y) :=
  fun _ => ⟨_, rfl, selects_minor (majorField_encodeXYN 0x9#4 0x0#4 x y)
    (nField_encodeXYN 0x9#4 0x0#4 x y) (by decide)⟩

theorem ldI (nnn : Addr) : Statement (.ldI nnn) :=
  fun _ => ⟨_, rfl, selects_major (majorField_encodeNNN 0xA#4 nnn) (by decide)⟩

theorem jpV0 (nnn : Addr) : Statement (.jpV0 nnn) :=
  fun _ => ⟨_, rfl, selects_major (majorField_encodeNNN 0xB#4 nnn) (by decide)⟩

theorem rnd (x : RegIx) (kk : Byte) : Statement (.rnd x kk) :=
  fun _ => ⟨_, rfl, selects_major (majorField_encodeXKK 0xC#4 x kk) (by decide)⟩

theorem drw (x y : RegIx) (n : Nat) : Statement (.drw x y n) :=
  fun h => by
    have hn : n < 16 := by simpa [Instr.wellFormed] using h
    have e : n = (BitVec.ofNat 4 n).toNat := by
      rw [BitVec.toNat_ofNat]
      omega
    refine ⟨_, rfl, selects_major ?_ (by decide)⟩
    rw [encode, e]
    exact majorField_encodeXYN 0xD#4 (BitVec.ofNat 4 n) x y

theorem skp (x : RegIx) : Statement (.skp x) :=
  fun _ => ⟨_, rfl, selects_low (majorField_encodeXF 0xE#4 x 0x9E#8)
    (kkField_encodeXF 0xE#4 x 0x9E#8) (by decide)⟩

theorem sknp (x : RegIx) : Statement (.sknp x) :=
  fun _ => ⟨_, rfl, selects_low (majorField_encodeXF 0xE#4 x 0xA1#8)
    (kkField_encodeXF 0xE#4 x 0xA1#8) (by decide)⟩

theorem ldVxDt (x : RegIx) : Statement (.ldVxDt x) :=
  fun _ => ⟨_, rfl, selects_low (majorField_encodeXF 0xF#4 x 0x07#8)
    (kkField_encodeXF 0xF#4 x 0x07#8) (by decide)⟩

theorem ldVxK (x : RegIx) : Statement (.ldVxK x) :=
  fun _ => ⟨_, rfl, selects_low (majorField_encodeXF 0xF#4 x 0x0A#8)
    (kkField_encodeXF 0xF#4 x 0x0A#8) (by decide)⟩

theorem ldDtVx (x : RegIx) : Statement (.ldDtVx x) :=
  fun _ => ⟨_, rfl, selects_low (majorField_encodeXF 0xF#4 x 0x15#8)
    (kkField_encodeXF 0xF#4 x 0x15#8) (by decide)⟩

theorem ldStVx (x : RegIx) : Statement (.ldStVx x) :=
  fun _ => ⟨_, rfl, selects_low (majorField_encodeXF 0xF#4 x 0x18#8)
    (kkField_encodeXF 0xF#4 x 0x18#8) (by decide)⟩

theorem addI (x : RegIx) : Statement (.addI x) :=
  fun _ => ⟨_, rfl, selects_low (majorField_encodeXF 0xF#4 x 0x1E#8)
    (kkField_encodeXF 0xF#4 x 0x1E#8) (by decide)⟩

theorem ldF (x : RegIx) : Statement (.ldF x) :=
  fun _ => ⟨_, rfl, selects_low (majorField_encodeXF 0xF#4 x 0x29#8)
    (kkField_encodeXF 0xF#4 x 0x29#8) (by decide)⟩

theorem ldB (x : RegIx) : Statement (.ldB x) :=
  fun _ => ⟨_, rfl, selects_low (majorField_encodeXF 0xF#4 x 0x33#8)
    (kkField_encodeXF 0xF#4 x 0x33#8) (by decide)⟩

theorem storeRegs (x : RegIx) : Statement (.storeRegs x) :=
  fun _ => ⟨_, rfl, selects_low (majorField_encodeXF 0xF#4 x 0x55#8)
    (kkField_encodeXF 0xF#4 x 0x55#8) (by decide)⟩

theorem loadRegs (x : RegIx) : Statement (.loadRegs x) :=
  fun _ => ⟨_, rfl, selects_low (majorField_encodeXF 0xF#4 x 0x65#8)
    (kkField_encodeXF 0xF#4 x 0x65#8) (by decide)⟩

end Sys2Proof.Laws.WordFitsRow
end

