-- ==== Sys2Proof/Laws/Run.lean ====
section
/-! SUPPORT. A run of the core, one transition at a time. -/

namespace Sys2Proof.Machine

theorem run_succ (M : Host.Core) {s t : M.State} (n : Nat) (h : M.step s = .next t) :
    M.run (n + 1) s = M.run n t := by
  rw [Host.Core.run, h]

/-- One transition that answers a next state, then the rest of the run. -/
theorem core_run_succ {s t : State} (n : Nat) (h : step s = .next t) :
    core.run (n + 1) s = core.run n t := run_succ core n h

theorem core_run_zero (s : State) : core.run 0 s = .next s := rfl

end Sys2Proof.Machine
end

