-- ==== Sys2Proof/Laws/Step.lean ====
section
/-! SUPPORT. What one transition can be, said once: the inversion of `step`. -/

namespace Sys2Proof.Machine

/-- The state a step executes on: the operation off the queue, the inputs sampled (R91). -/
def State.sampled (s : State) (keys : KeyLevels) (rnd : Byte) (rest : List HostOp) : State :=
  (s.setHost rest).setInputs keys rnd

theorem State.setHost_self {s : State} {l : List HostOp} (h : s.host = l) : s.setHost l = s := by
  subst h
  rfl

/-- A step of either kind, named by the queue or free, is `coreStep` with its inputs. -/
theorem step_of_nextIsStep {s : State} {keys : KeyLevels} {rnd : Byte} {rest : List HostOp}
    (h : s.nextIsStep keys rnd rest) : step s = coreStep keys rnd (s.setHost rest) := by
  rcases h with h | ⟨h, rfl, rfl, rfl⟩
  · simp [step, performNext, h, perform]
  · simp [step, performNext, h, State.setHost_self h]

theorem State.gated_eq_false {s : State} : s.gated = false ↔ s.fault = none ∧ s.wait = none := by
  simp [State.gated]

theorem coreStep_gated {s : State} (keys : KeyLevels) (rnd : Byte) (h : s.gated = true) :
    coreStep keys rnd s = .next s := by
  rw [coreStep, if_pos h]

theorem coreStep_running {s : State} (keys : KeyLevels) (rnd : Byte) (h : s.gated = false) :
    coreStep keys rnd s = runInstr (s.setInputs keys rnd) := by
  simp [coreStep, h]

theorem runInstr_outOfRange {s : State} (h : lastFetch < s.pc.toNat) :
    runInstr s = .next (s.setFault (some (.fetchOutOfRange s.pc))) := by
  rw [runInstr, if_pos h, raise]

theorem runInstr_illegal {s : State} (h : ¬ lastFetch < s.pc.toNat) (hd : decodeWord s.fetchWord = none) :
    runInstr s = .next (s.advance.setFault (some (.unknownOpcode s.fetchWord))) := by
  rw [runInstr, if_neg h, hd, raise]

theorem runInstr_exec {s : State} {i : Instr} (h : ¬ lastFetch < s.pc.toNat)
    (hd : decodeWord s.fetchWord = some i) : runInstr s = exec i s.advance := by
  rw [runInstr, if_neg h, hd]

/-- Every way a transition can go from `s` to `t`. -/
inductive StepCase (s t : State) : Prop where
  | gated (keys : KeyLevels) (rnd : Byte) (rest : List HostOp) (hop : s.nextIsStep keys rnd rest)
      (hg : s.gated = true) (ht : t = s.setHost rest)
  | outOfRange (keys : KeyLevels) (rnd : Byte) (rest : List HostOp) (hop : s.nextIsStep keys rnd rest)
      (hg : s.gated = false) (hpc : lastFetch < s.pc.toNat)
      (ht : t = (s.sampled keys rnd rest).setFault (some (.fetchOutOfRange s.pc)))
  | illegal (keys : KeyLevels) (rnd : Byte) (rest : List HostOp) (hop : s.nextIsStep keys rnd rest)
      (hg : s.gated = false) (hpc : ¬ lastFetch < s.pc.toNat) (hd : decodeWord s.fetchWord = none)
      (ht : t = (s.sampled keys rnd rest).advance.setFault (some (.unknownOpcode s.fetchWord)))
  | executed (keys : KeyLevels) (rnd : Byte) (rest : List HostOp) (i : Instr)
      (hop : s.nextIsStep keys rnd rest) (hg : s.gated = false) (hpc : ¬ lastFetch < s.pc.toNat)
      (hd : decodeWord s.fetchWord = some i)
      (ht : exec i (s.sampled keys rnd rest).advance = .next t)
  | ticked (rest : List HostOp) (hop : s.host = .tick :: rest) (ht : t = tick (s.setHost rest))
  | delivered (k : Nat) (rest : List HostOp) (hop : s.host = .deliverKey k :: rest) (hk : k < 16)
      (ht : t = match s.wait with
        | some x => ((s.setHost rest).setV x (BitVec.ofNat 8 k)).setWait none
        | none => s.setHost rest)
  | loaded (bytes : List Byte) (rest : List HostOp) (hop : s.host = .loadProgram bytes :: rest)
      (ht : t = loadProgram bytes (s.setHost rest))
  | wasReset (rest : List HostOp) (hop : s.host = .reset :: rest) (ht : t = hardReset (s.setHost rest))

theorem coreStep_cases {s t : State} {keys : KeyLevels} {rnd : Byte} {rest : List HostOp}
    (hop : s.nextIsStep keys rnd rest) (h : coreStep keys rnd (s.setHost rest) = .next t) :
    StepCase s t := by
  cases hg : s.gated
  · rw [coreStep_running keys rnd (s := s.setHost rest) hg] at h
    change runInstr (s.sampled keys rnd rest) = .next t at h
    by_cases hpc : lastFetch < s.pc.toNat
    · rw [runInstr_outOfRange (s := s.sampled keys rnd rest) hpc] at h
      exact .outOfRange keys rnd rest hop hg hpc (Host.Outcome.next.inj h).symm
    · cases hd : decodeWord s.fetchWord with
      | none =>
        rw [runInstr_illegal (s := s.sampled keys rnd rest) hpc hd] at h
        exact .illegal keys rnd rest hop hg hpc hd (Host.Outcome.next.inj h).symm
      | some i =>
        rw [runInstr_exec (s := s.sampled keys rnd rest) hpc hd] at h
        exact .executed keys rnd rest i hop hg hpc hd h
  · rw [coreStep_gated keys rnd (s := s.setHost rest) hg] at h
    exact .gated keys rnd rest hop hg (Host.Outcome.next.inj h).symm

/-- The inversion of `step`: an answered next state comes about in one of these ways. -/
theorem step_cases {s t : State} (h : step s = .next t) : StepCase s t := by
  unfold step performNext at h
  split at h
  · rename_i op rest hhost
    cases op with
    | step keys rnd => exact coreStep_cases (Or.inl hhost) h
    | tick => exact .ticked rest hhost (Host.Outcome.next.inj h).symm
    | deliverKey k =>
      simp only [perform, deliverKey] at h
      split at h
      · rename_i hk
        refine .delivered k rest hhost hk ?_
        cases hw : s.wait with
        | none =>
          rw [State.setHost_wait, hw] at h
          exact (Host.Outcome.next.inj h).symm
        | some x =>
          rw [State.setHost_wait, hw] at h
          exact (Host.Outcome.next.inj h).symm
      · exact absurd h (by simp)
    | loadProgram bytes => exact .loaded bytes rest hhost (Host.Outcome.next.inj h).symm
    | reset => exact .wasReset rest hhost (Host.Outcome.next.inj h).symm
  · rename_i hhost
    have hop : s.nextIsStep (Config.freeKeys s.samples) (Config.freeRnd s.samples) [] :=
      Or.inr ⟨hhost, rfl, rfl, rfl⟩
    rw [← State.setHost_self hhost] at h
    exact coreStep_cases hop h

end Sys2Proof.Machine
end

