-- ==== Sys2Proof/Tests/Slice0.lean ====
section
/-! SUPPORT. The model's own tests (expected results from spec/95_test_vectors.md and the rules' examples, never from the model) and a witness for the hypotheses of every statement. -/

namespace Sys2Proof.Tests

open Sys2Proof.Machine

/-! ## Helpers -/

/-- No key held. -/
def noKeys : KeyLevels := Vector.replicate 16 false

/-- Key 5 held, no other (95_test_vectors.md B6). -/
def key5 : KeyLevels := noKeys.set 5 true

/-- The state after power-on with some registers set. -/
def regs (l : List (RegIx × Byte)) : State :=
  l.foldl (fun s p => s.setV p.1 p.2) State.reset

/-- A start state with bytes stored from an address up. -/
def bytesAt (s : State) (base : Nat) (bs : List Byte) : State := s.setMem (s.mem.writeRun base bs)

/-- A start state with other parameters. -/
def params (s : State) (f : Params → Params) : State := { s with params := f s.params }

/-- A start state with one cell of the frame buffer set. -/
def cellSet (s : State) (r : Fin 32) (c : Fin 64) : State := s.setFb (s.fb.setCell r c true)

/-- The word at `PC`, and one `step` of the host on it. -/
def ready (s : State) (op : Word) (keys : KeyLevels := noKeys) (rnd : Byte := 0x00) : State :=
  (bytesAt s s.pc.toNat [highByte op, lowByte op]).setHost [.step keys rnd]

/-- An outcome is a next state with a property. -/
def isNext (o : Host.Outcome State Fault Refusal) (p : State → Bool) : Bool :=
  match o with
  | .next t => p t
  | .fault _ => false
  | .refused _ => false

theorem isNext_elim {o : Host.Outcome State Fault Refusal} {p : State → Bool} (h : isNext o p = true) :
    ∃ t, o = .next t ∧ p t = true := by
  cases o with
  | next t => exact ⟨t, rfl, h⟩
  | fault r => exact absurd h (by simp [isNext])
  | refused r => exact absurd h (by simp [isNext])

/-- One step on a word from a start state, as 95_test_vectors.md sets it up. -/
def after (s : State) (op : Word) (p : State → Bool) (keys : KeyLevels := noKeys) (rnd : Byte := 0x00) :
    Bool := isNext (step (ready s op keys rnd)) p

/-- One host operation. -/
def operate (s : State) (op : HostOp) (p : State → Bool) : Bool := isNext (step (s.setHost [op])) p

/-- The set cells of the frame buffer, row by row. -/
def setCells (t : State) : List (Nat × Nat) :=
  t.fb.toList.zipIdx.flatMap (fun row =>
    row.1.toList.zipIdx.filterMap (fun cell => if cell.1 then some (row.2, cell.2) else none))

/-- Exactly the named cells of the frame buffer are set. -/
def onlySet (t : State) (cells : List (Nat × Nat)) : Bool := setCells t == cells

/-! ## WellFormed -/

/-- R74: `n` is four bits. -/
theorem test_wellFormed_refuses_sixteen_rows : (Instr.drw 0x0 0x0 16).wellFormed = false := by decide

theorem test_wellFormed_accepts_boundary_rows :
    (Instr.drw 0xF 0xF 15).wellFormed = true ∧ (Instr.drw 0x0 0x0 0).wellFormed = true := by decide

/-! ## Decode: every form, by a word written out from its pattern in R75 -/

theorem test_decode_flow :
    decodeWord 0x00EE = some .ret ∧ decodeWord 0x1FFF = some (.jp 0xFFF) ∧
    decodeWord 0x2ABC = some (.call 0xABC) ∧ decodeWord 0x3F00 = some (.seImm 0xF 0x00) ∧
    decodeWord 0x4A10 = some (.sneImm 0xA 0x10) ∧ decodeWord 0x5AB0 = some (.seReg 0xA 0xB) ∧
    decodeWord 0x9120 = some (.sneReg 0x1 0x2) ∧ decodeWord 0xB300 = some (.jpV0 0x300) := by decide

theorem test_decode_alu :
    decodeWord 0x6A05 = some (.ldImm 0xA 0x05) ∧ decodeWord 0x71FF = some (.addImm 0x1 0xFF) ∧
    decodeWord 0x8120 = some (.ldReg 0x1 0x2) ∧ decodeWord 0x8121 = some (.orReg 0x1 0x2) ∧
    decodeWord 0x8122 = some (.andReg 0x1 0x2) ∧ decodeWord 0x8123 = some (.xorReg 0x1 0x2) ∧
    decodeWord 0x8AB4 = some (.addReg 0xA 0xB) ∧ decodeWord 0x8015 = some (.subReg 0x0 0x1) ∧
    decodeWord 0x8126 = some (.shr 0x1 0x2) ∧ decodeWord 0x8017 = some (.subnReg 0x0 0x1) ∧
    decodeWord 0x8FFE = some (.shl 0xF 0xF) ∧ decodeWord 0xC00F = some (.rnd 0x0 0x0F) := by decide

theorem test_decode_index_display :
    decodeWord 0xA300 = some (.ldI 0x300) ∧ decodeWord 0xF31E = some (.addI 0x3) ∧
    decodeWord 0xFA29 = some (.ldF 0xA) ∧ decodeWord 0xF033 = some (.ldB 0x0) ∧
    decodeWord 0xF255 = some (.storeRegs 0x2) ∧ decodeWord 0xFF65 = some (.loadRegs 0xF) ∧
    decodeWord 0x00E0 = some .cls ∧ decodeWord 0xD12F = some (.drw 0x1 0x2 0xF) := by decide

theorem test_decode_keys_timers :
    decodeWord 0xEF9E = some (.skp 0xF) ∧ decodeWord 0xE0A1 = some (.sknp 0x0) ∧
    decodeWord 0xF307 = some (.ldVxDt 0x3) ∧ decodeWord 0xF50A = some (.ldVxK 0x5) ∧
    decodeWord 0xF015 = some (.ldDtVx 0x0) ∧ decodeWord 0xF118 = some (.ldStVx 0x1) := by decide

/-- 95_test_vectors.md B1, the illegal words. -/
theorem test_decode_illegal :
    [0x0000, 0x00E1, 0x00EF, 0x00FE, 0x00FF, 0x00C1, 0x01E0, 0x0FFF, 0x0200, 0x5AB1, 0x5ABF, 0x5121,
     0x9AB1, 0x9ABF, 0x8008, 0x8AB9, 0x8ABA, 0x8ABB, 0x8ABC, 0x8ABD, 0x8ABF, 0xE000, 0xE09F, 0xE0A0,
     0xE19D, 0xEFFF, 0xF000, 0xF001, 0xF01F, 0xF030, 0xF056, 0xF075, 0xF085, 0xFFFF].all
      (fun w : Word => decodeWord w == none) = true := by decide

/-- S11: the bytes of 0xD12F, the high one first; a byte short of a word is no instruction. -/
theorem test_decode_bytes :
    decode [0xD1, 0x2F, 0x77] = .ok (.drw 0x1 0x2 0xF, [0x77]) ∧ decode [0xD1] = .error .truncated ∧
    decode [0x00, 0x00] = .error (.unknownOpcode 0x0000) ∧
    encodeBytes (.drw 0x1 0x2 0xF) = [0xD1, 0x2F] := by
  refine ⟨?_, ?_, ?_, ?_⟩ <;> rfl

theorem test_decodeTableWord : decodeTableWord 16 0xD12F = some (.drw 0x1 0x2 0xF) := by decide

/-! ## Control transfer (B3) -/

theorem test_ret : after { State.reset with pc := 0x400, stack := [0x0202, 0x0345] } 0x00EE
    (fun t => t.pc == 0x0345 && t.stack == [0x0202]) = true := by decide

theorem test_ret_underflow : after State.reset 0x00EE
    (fun t => t.pc == 0x0202 && t.stack == [] && t.fault == some .stackUnderflow) = true := by decide

theorem test_jp_odd : after State.reset 0x1201 (fun t => t.pc == 0x0201) = true := by decide

theorem test_call_at_FFE : after { State.reset with pc := 0xFFE } 0x2300
    (fun t => t.pc == 0x0300 && t.stack == [0x1000]) = true := by decide

theorem test_call_overflow :
    after (params { State.reset with stack := [0x0300, 0x0302] } (fun p => { p with stackDepth := some 2 }))
      0x2300 (fun t => t.pc == 0x0202 && t.stack == [0x0300, 0x0302] && t.fault == some .stackOverflow) =
      true := by decide

theorem test_se_imm : after { State.reset with pc := 0x208 } 0x3100 (fun t => t.pc == 0x020C) = true ∧
    after { regs [(1, 0x01)] with pc := 0x208 } 0x3100 (fun t => t.pc == 0x020A) = true := by decide

theorem test_sne_imm : after { regs [(0xA, 0x11)] with pc := 0x300 } 0x4A10 (fun t => t.pc == 0x0304) = true ∧
    after { regs [(0xA, 0x10)] with pc := 0x300 } 0x4A10 (fun t => t.pc == 0x0302) = true := by decide

theorem test_se_reg : after (regs [(1, 0x7F), (2, 0x7F)]) 0x5120 (fun t => t.pc == 0x0204) = true ∧
    after (regs [(1, 0x7F), (2, 0x7E)]) 0x5120 (fun t => t.pc == 0x0202) = true := by decide

theorem test_sne_reg : after (regs [(2, 0xFF)]) 0x9120 (fun t => t.pc == 0x0204) = true ∧
    after (regs [(0xA, 0x01), (0xB, 0x01)]) 0x9AB0 (fun t => t.pc == 0x0202) = true := by decide

theorem test_jp_v0_uses_v0 : after (regs [(0, 0x01), (2, 0x77)]) 0xB201 (fun t => t.pc == 0x0202) = true := by
  decide

theorem test_jp_v0_unmasked : after (regs [(0, 0xFF)]) 0xBFFF (fun t => t.pc == 0x10FE) = true := by decide

/-! ## Load, arithmetic, logic, shift, random (S1, S2, S7, B2) -/

theorem test_ld_imm : after State.reset 0x6FFF (fun t => t.readV VF == 0xFF) = true := by decide

theorem test_add_imm_no_carry :
    after (regs [(0, 0xFF)]) 0x7001 (fun t => t.readV 0 == 0x00 && t.readV VF == 0x00) = true := by decide

theorem test_ld_reg : after (regs [(2, 0x3C)]) 0x8120 (fun t => t.readV 1 == 0x3C) = true := by decide

theorem test_or : after (regs [(1, 0x0F), (2, 0xF0), (VF, 0x01)]) 0x8121
    (fun t => t.readV 1 == 0xFF && t.readV VF == 0x00) = true := by decide

/-- B2 32: the result is written, then cleared. -/
theorem test_or_into_vf : after (regs [(VF, 0xAA), (1, 0x55)]) 0x8F11 (fun t => t.readV VF == 0x00) = true := by
  decide

/-- B2 33. -/
theorem test_and_vf_source : after (regs [(1, 0xFF), (VF, 0x0F)]) 0x81F2
    (fun t => t.readV 1 == 0x0F && t.readV VF == 0x00) = true := by decide

theorem test_xor : after (regs [(1, 0xFF), (2, 0x0F), (VF, 0x01)]) 0x8123
    (fun t => t.readV 1 == 0xF0 && t.readV VF == 0x00) = true := by decide

theorem test_add_255_is_no_carry :
    after (regs [(0, 0xFF)]) 0x8014 (fun t => t.readV 0 == 0xFF && t.readV VF == 0x00) = true ∧
    after (regs [(0, 0xFF), (1, 0x01)]) 0x8014 (fun t => t.readV 0 == 0x00 && t.readV VF == 0x01) = true := by
  decide

/-- B2 30: the carry is written, then the sum. -/
theorem test_add_into_vf : after (regs [(VF, 0xFF), (1, 0x02)]) 0x8F14 (fun t => t.readV VF == 0x01) = true := by
  decide

theorem test_sub_borrow_and_equal :
    after (regs [(0, 0x05), (1, 0x0A)]) 0x8015 (fun t => t.readV 0 == 0xFB && t.readV VF == 0x00) = true ∧
    after (regs [(0, 0x80), (1, 0x80)]) 0x8015 (fun t => t.readV 0 == 0x00 && t.readV VF == 0x01) = true := by
  decide

/-- B2 34, 35: the operands are sampled before `VF` is written. -/
theorem test_sub_samples_vf :
    after (regs [(VF, 0x0A), (1, 0x03)]) 0x8F15 (fun t => t.readV VF == 0x07) = true ∧
    after (regs [(1, 0x0A), (VF, 0x03)]) 0x81F5 (fun t => t.readV 1 == 0x07 && t.readV VF == 0x01) = true := by
  decide

theorem test_shr : after (regs [(1, 0x80), (2, 0x01)]) 0x8126
      (fun t => t.readV 1 == 0x40 && t.readV VF == 0x00 && t.readV 2 == 0x01) = true ∧
    after (params (regs [(1, 0x80), (2, 0x01)]) (fun p => { p with quirkShift := true })) 0x8126
      (fun t => t.readV 1 == 0x00 && t.readV VF == 0x01 && t.readV 2 == 0x01) = true := by decide

/-- B2 38. -/
theorem test_shr_into_vf : after (params (regs [(VF, 0x55), (1, 0x07)]) (fun p => { p with quirkShift := true }))
    0x8F16 (fun t => t.readV VF == 0x03 && t.readV 1 == 0x07) = true := by decide

theorem test_subn :
    after (regs [(0, 0x0A), (1, 0x05)]) 0x8017 (fun t => t.readV 0 == 0xFB && t.readV VF == 0x00) = true ∧
    after (regs [(VF, 0x03), (1, 0x0A)]) 0x8F17 (fun t => t.readV VF == 0x07) = true := by decide

theorem test_shl : after (regs [(0, 0x81)]) 0x801E (fun t => t.readV 0 == 0x02 && t.readV VF == 0x01) = true ∧
    after (params (regs [(1, 0xC0)]) (fun p => { p with quirkShift := true })) 0x801E
      (fun t => t.readV 0 == 0x80 && t.readV VF == 0x01) = true := by decide

/-- B2 39. -/
theorem test_shl_into_vf : after (regs [(VF, 0xC1)]) 0x8F1E (fun t => t.readV VF == 0x82) = true := by decide

theorem test_rnd : after State.reset 0xC00F (fun t => t.readV 0 == 0x07) noKeys 0xA7 = true ∧
    after (regs [(0, 0x55)]) 0xC000 (fun t => t.readV 0 == 0x00) noKeys 0xA7 = true := by decide

/-! ## Index register, BCD, save and restore (B4) -/

theorem test_ld_i : after State.reset 0xAFFF (fun t => t.i == 0x0FFF) = true := by decide

theorem test_add_i : after { regs [(0, 0x01)] with i := 0x0FFF } 0xF01E
      (fun t => t.i == 0x1000 && t.readV VF == 0x00) = true ∧
    after { regs [(0, 0x01)] with i := 0xFFFF } 0xF01E (fun t => t.i == 0x0000) = true := by decide

theorem test_ld_f : after (regs [(0, 0x10)]) 0xF029 (fun t => t.i == 0x0050) = true ∧
    after (regs [(VF, 0xFF)]) 0xFF29 (fun t => t.i == 0x04FB) = true := by decide

/-- B4 11: the run wraps over the font. -/
theorem test_bcd_wraps : after { regs [(0, 0xFF)] with i := 0x0FFF } 0xF033
    (fun t => t.readByte 0xFFF == 0x02 && t.readByte 0x000 == 0x05 && t.readByte 0x001 == 0x05 &&
      t.readByte 0x002 == 0x90 && t.i == 0x0FFF) = true := by decide

theorem test_bcd : after (params { regs [(0, 0xEA)] with i := 0x1300 } (fun p => { p with quirkIncrI := true }))
    0xF033 (fun t => t.readByte 0x300 == 0x02 && t.readByte 0x301 == 0x03 && t.readByte 0x302 == 0x04 &&
      t.i == 0x1300) = true := by decide

/-- B4 18. -/
theorem test_store_wraps_and_advances :
    after (params { regs [(0, 0xA1), (1, 0xA2), (2, 0xA3), (3, 0xA4)] with i := 0x0FFE }
      (fun p => { p with quirkIncrI := true })) 0xF355
      (fun t => t.readByte 0xFFE == 0xA1 && t.readByte 0xFFF == 0xA2 && t.readByte 0x000 == 0xA3 &&
        t.readByte 0x001 == 0xA4 && t.i == 0x1002) = true := by decide

/-- B4 16. -/
theorem test_store_one : after { regs [(0, 0x5A), (1, 0x77)] with i := 0x0400 } 0xF055
    (fun t => t.readByte 0x400 == 0x5A && t.readByte 0x401 == 0x00 && t.i == 0x0400) = true := by decide

/-- B4 22, 23. -/
theorem test_load : after (bytesAt { regs [(3, 0x99)] with i := 0x0300 } 0x300 [0x02, 0x03, 0x04]) 0xF265
      (fun t => t.readV 0 == 0x02 && t.readV 1 == 0x03 && t.readV 2 == 0x04 && t.readV 3 == 0x99 &&
        t.i == 0x0300) = true ∧
    after (params { State.reset with i := 0x0300 } (fun p => { p with quirkIncrI := true })) 0xF265
      (fun t => t.i == 0x0303) = true := by decide

/-- B4 25 (depends on `FONT`). -/
theorem test_load_font : after State.reset 0xFF65 (fun t => t.v.toList ==
    [0xF0, 0x90, 0x90, 0x90, 0xF0, 0x20, 0x60, 0x20, 0x20, 0x70, 0xF0, 0x10, 0xF0, 0x80, 0xF0, 0xF0]) =
    true := by decide

/-! ## Frame buffer (B5) -/

theorem test_cls : after (cellSet (regs [(VF, 0x01)]) 5 5) 0x00E0
    (fun t => onlySet t [] && t.readV VF == 0x01 && t.events == [.fbCleared]) = true := by decide

/-- B5 7: clipped at both edges. -/
theorem test_draw_clips : after { regs [(0, 0x7E), (1, 0x3E)] with i := 0x0005 } 0xD015
    (fun t => onlySet t [(31, 63)] && t.readV VF == 0x00) = true := by decide

/-- B5 9. -/
theorem test_draw_collides : after (cellSet (bytesAt { State.reset with i := 0x0300 } 0x300 [0xC0]) 0 0) 0xD011
    (fun t => onlySet t [(0, 1)] && t.readV VF == 0x01) = true := by decide

/-! ## Keys and timers (B6) -/

theorem test_skp : after (regs [(0, 0x05)]) 0xE09E (fun t => t.pc == 0x0204) key5 = true ∧
    after (regs [(0, 0x06)]) 0xE09E (fun t => t.pc == 0x0202) key5 = true := by decide

/-- B6 7, 9, 10: `KEY_OOR`. -/
theorem test_skp_policy :
    after (regs [(0, 0x15)]) 0xE09E (fun t => t.pc == 0x0202) key5 = true ∧
    after (params (regs [(0, 0x15)]) (fun p => { p with keyOor := .mask4 })) 0xE09E
      (fun t => t.pc == 0x0204) key5 = true ∧
    after (params (regs [(0, 0x15)]) (fun p => { p with keyOor := .fault })) 0xE09E
      (fun t => t.pc == 0x0202 && t.fault == some (.keyIndexOutOfRange 0x15)) key5 = true := by decide

theorem test_sknp : after State.reset 0xE5A1 (fun t => t.pc == 0x0204) key5 = true ∧
    after (regs [(0, 0x05)]) 0xE0A1 (fun t => t.pc == 0x0202) key5 = true := by decide

theorem test_ld_vx_dt : after { State.reset with dt := 0x2A } 0xF307
    (fun t => t.readV 3 == 0x2A && t.dt == 0x2A) = true := by decide

/-- B6 15: a held key does not end the wait. -/
theorem test_ld_vx_k : after (regs [(5, 0x77)]) 0xF50A
    (fun t => t.wait == some 5 && t.pc == 0x0202 && t.readV 5 == 0x77 && awaitingKey t) key5 = true := by decide

theorem test_ld_dt_vx : after (regs [(0, 0x3C)]) 0xF015 (fun t => t.dt == 0x3C && t.st == 0x00) = true := by
  decide

theorem test_ld_st_vx : after (regs [(1, 0x02)]) 0xF118 (fun t => t.st == 0x02 && soundActive t) = true ∧
    after { State.reset with st := 0x09 } 0xF018 (fun t => t.st == 0x00 && !soundActive t) = true := by decide

/-! ## Faults and host operations (B7, B8) -/

/-- B7 1: power-on, no program, one step. -/
theorem test_bare_reset_faults : operate State.reset (.step noKeys 0x00)
    (fun t => t.fault == some (.unknownOpcode 0x0000) && t.pc == 0x0202 &&
      stepOutcome State.reset t == .faulted (.unknownOpcode 0x0000)) = true := by decide

/-- B7 9. -/
theorem test_fetch_out_of_range : operate { State.reset with pc := 0x0FFF } (.step noKeys 0x00)
    (fun t => t.fault == some (.fetchOutOfRange 0x0FFF) && t.pc == 0x0FFF) = true := by decide

/-- B8 2, 4. -/
theorem test_tick : operate { State.reset with st := 0x01 } .tick
      (fun t => t.dt == 0x00 && t.st == 0x00 && !soundActive t) = true ∧
    operate { State.reset with wait := some 1, dt := 0x03 } .tick
      (fun t => t.dt == 0x02 && t.wait == some 1) = true := by decide

/-- B8 5, 6. -/
theorem test_deliverKey : operate { regs [(1, 0x77)] with wait := some 1, pc := 0x0206 } (.deliverKey 0xB)
      (fun t => t.readV 1 == 0x0B && t.wait == none && t.pc == 0x0206) = true ∧
    operate (regs [(1, 0x77)]) (.deliverKey 0xB) (fun t => t.readV 1 == 0x77) = true := by decide

/-- B8 10. -/
theorem test_loadProgram :
    operate (bytesAt { regs [(0, 0x55)] with pc := 0x0300 } 0x202 [0xEE]) (.loadProgram [0x60, 0x07])
      (fun t => t.readByte 0x200 == 0x60 && t.readByte 0x201 == 0x07 && t.readByte 0x202 == 0xEE &&
        t.pc == 0x0300 && t.readV 0 == 0x55 && t.events == [.loadResult none]) = true := by decide

/-- The start state of B8 11. -/
def dirty : State :=
  { regs [(3, 0x09)] with
    i := 0x0ABC
    pc := 0x0456
    stack := [0x0202]
    dt := 0x05
    st := 0x06
    fb := FrameBuffer.clear.setCell 1 1 true
    mem := (Memory.write [] 0x000 0x00).write 0x300 0x77
    wait := some 3 }

/-- B8 11: what `reset` clears, restores and keeps. -/
theorem test_reset : operate dirty .reset
    (fun t => t.readV 3 == 0x00 && t.i == 0x0000 && t.pc == 0x0200 && t.stack == [] && t.dt == 0x00 &&
      t.st == 0x00 && !t.fb.cell 1 1 && t.readByte 0x000 == 0xF0 && t.readByte 0x300 == 0x77 &&
      t.wait == none && t.fault == none && t.events == []) = true := by decide

/-- Log 22: a placed word is fetched and run by the very next step. -/
theorem test_withFetchWord : isNext (step (State.reset.withFetchWord 16 0x6A05))
    (fun t => t.readV 0xA == 0x05 && t.pc == 0x0202) = true := by decide

/-! ## Witnesses: a state and operands that meet the hypotheses of each statement, for each of its clauses -/

/-- A next state that is known to exist, with what the decision procedure finds in it. -/
theorem some_next {o : Host.Outcome State Fault Refusal} {p : State → Bool} (q : State → Prop)
    (h : isNext o p = true) (hq : ∀ t, p t = true → q t) : ∃ t, o = .next t ∧ q t := by
  obtain ⟨t, ht, hp⟩ := isNext_elim h
  exact ⟨t, ht, hq t hp⟩

theorem witness_DecodeOfEncodeIsIdentity :
    (Instr.drw 0xF 0xF 15).wellFormed = true ∧ (Instr.drw 0x0 0x0 0).wellFormed = true := by decide

theorem witness_EncodeOfDecodeIsIdentity :
    decodeWord 0x00E0 = some .cls ∧ decodeWord 0xFF65 = some (.loadRegs 0xF) := by decide

theorem witness_WordSelectsFormExactlyWhenItsRowMatches :
    opcodeRows[0]? = some ⟨0xFFFF, 0x00E0⟩ ∧ opcodeRows[33]? = some ⟨0xF0FF, 0xF065⟩ := by decide

theorem witness_FetchIsBigEndian :
    ({ State.reset with pc := 0x0FFE }).pc.toNat ≤ 0xFFE ∧ (0xFFE#12).toNat = 0xFFE ∧
      (0xFFF#12).toNat = 0xFFE + 1 := by decide

/-- A running core at the highest address a fetch can have, with a `step` next in the queue. -/
def atLastWord : State := ready { State.reset with pc := 0x0FFE } 0x6A05

theorem witness_StepRunsTheDecodedInstruction :
    atLastWord.nextIsStep noKeys 0x00 [] ∧ atLastWord.fault = none ∧ atLastWord.wait = none ∧
      atLastWord.pc.toNat ≤ 0xFFE ∧
      decode [atLastWord.readByte (BitVec.ofNat 12 atLastWord.pc.toNat),
        atLastWord.readByte (BitVec.ofNat 12 (atLastWord.pc.toNat + 1))] = .ok (.ldImm 0xA 0x05, []) :=
  ⟨Or.inl rfl, rfl, rfl, by decide, rfl⟩

/-- The same of a core whose queue is empty: the next operation is a `step` with free inputs. -/
theorem witness_nextIsStep_free :
    State.reset.nextIsStep (Config.freeKeys 0) (Config.freeRnd 0) [] := Or.inr ⟨rfl, rfl, rfl, rfl⟩

/-- A core that waits for a key, with the given operations to come. -/
def waiting (ops : List HostOp) : State := { State.reset with wait := some 5, host := ops }

/-- A faulted core, with the given operations to come. -/
def faulted (ops : List HostOp) : State := { State.reset with fault := some .stackUnderflow, host := ops }

theorem witness_GatedStepChangesNothing :
    (waiting [.step key5 0x00]).nextIsStep key5 0x00 [] ∧ (waiting [.step key5 0x00]).wait ≠ none ∧
      (waiting [.step key5 0x00]).fault = none ∧
      (faulted [.step noKeys 0x00]).nextIsStep noKeys 0x00 [] ∧
      (faulted [.step noKeys 0x00]).fault = some .stackUnderflow :=
  ⟨Or.inl rfl, by decide, rfl, Or.inl rfl, rfl⟩

theorem witness_FetchOutOfRangeIsLatched :
    let s : State := { State.reset with pc := 0x0FFF }
    s.nextIsStep (Config.freeKeys 0) (Config.freeRnd 0) [] ∧ s.fault = none ∧ s.wait = none ∧
      0xFFE < s.pc.toNat :=
  ⟨Or.inr ⟨rfl, rfl, rfl, rfl⟩, rfl, rfl, by decide⟩

theorem witness_UnknownOpcodeIsLatched :
    State.reset.nextIsStep (Config.freeKeys 0) (Config.freeRnd 0) [] ∧ State.reset.fault = none ∧
      State.reset.wait = none ∧ State.reset.pc.toNat ≤ 0xFFE ∧
      decode [State.reset.readByte (BitVec.ofNat 12 State.reset.pc.toNat),
        State.reset.readByte (BitVec.ofNat 12 (State.reset.pc.toNat + 1))] =
        .error (.unknownOpcode 0x0000) :=
  ⟨Or.inr ⟨rfl, rfl, rfl, rfl⟩, rfl, rfl, by decide, rfl⟩

/-- The invariant, of a core that differs from the reset state in its gates and its queue only. -/
theorem inv_gates (w : Option RegIx) (ops : List HostOp) :
    State.Inv { State.reset with wait := w, host := ops } where
  memCanonical := rfl
  pcBound := (by decide : State.reset.pc.toNat ≤ 0x10FE)
  stackBound := by simp [State.reset]
  oneGate := Or.inl rfl
  depthBound := by simp [State.reset, defaultParams]
  loadFaultNotLatched := by simp [State.reset]
  overflowOnlyIfFinite := by simp [State.reset]
  keyFaultOnlyIfPolicy := by simp [State.reset]

theorem inv_faulted (ops : List HostOp) : (faulted ops).Inv where
  memCanonical := rfl
  pcBound := (by decide : State.reset.pc.toNat ≤ 0x10FE)
  stackBound := by simp [faulted, State.reset]
  oneGate := Or.inr rfl
  depthBound := by simp [faulted, State.reset, defaultParams]
  loadFaultNotLatched := by simp [faulted]
  overflowOnlyIfFinite := by simp [faulted]
  keyFaultOnlyIfPolicy := by simp [faulted]

theorem witness_FaultLatchHoldsUntilReset :
    ((faulted [.reset]).Inv ∧ (faulted [.reset]).fault = some .stackUnderflow ∧
      ∃ t, step (faulted [.reset]) = .next t) ∧
    ((faulted [.tick]).Inv ∧ (faulted [.tick]).host.head? ≠ some .reset ∧
      ∃ t, step (faulted [.tick]) = .next t) :=
  ⟨⟨inv_faulted _, rfl, _, rfl⟩, ⟨inv_faulted _, by simp [faulted], _, rfl⟩⟩

theorem witness_OnlyAnOutOfRangeKeyIsRefused :
    step (waiting [.deliverKey 16]) = .refused (.keyNumberOutOfRange 16) ∧
      ∃ t, step (waiting [.deliverKey 15]) = .next t := ⟨rfl, _, rfl⟩

theorem witness_StepsTouchTimersAndInputsOnlyThroughTheirForms :
    (∃ t, coreStep noKeys 0x00 (ready (regs [(0, 0x3C)]) 0xF015) = .next t ∧ t.dt ≠ 0x00) ∧
    (∃ t, coreStep noKeys 0x00 (ready (regs [(0, 0x3C)]) 0xF018) = .next t ∧ t.st ≠ 0x00) ∧
    (∀ x, decodeWord (ready State.reset 0x6A05).fetchWord ≠ some (.skp x)) ∧
    (∀ x, decodeWord (ready State.reset 0x6A05).fetchWord ≠ some (.sknp x)) ∧
    (∀ x kk, decodeWord (ready State.reset 0x6A05).fetchWord ≠ some (.rnd x kk)) := by
  have e : decodeWord (ready State.reset 0x6A05).fetchWord = some (.ldImm 0xA 0x05) := by decide
  refine ⟨some_next (p := fun t => t.dt != 0x00) _ (by decide) (by simp),
    some_next (p := fun t => t.st != 0x00) _ (by decide) (by simp), ?_, ?_, ?_⟩ <;>
    (intros; rw [e]; simp)

theorem witness_EveryOperationKeepsTheInvariant :
    State.Inv { State.reset with wait := some 5, host := [.deliverKey 15] } ∧
      ∃ t, step { State.reset with wait := some 5, host := [.deliverKey 15] } = .next t :=
  ⟨inv_gates _ _, _, rfl⟩

theorem witness_ParametersNeverChange : ∃ t, step (faulted [.reset]) = .next t := ⟨_, rfl⟩

theorem witness_OnlyResetClearAndDrawChangeTheFrameBuffer :
    (∃ t, step (cellSet (faulted [.reset]) 31 63) = .next t ∧
      t.fb.cell 31 63 ≠ (cellSet (faulted [.reset]) 31 63).fb.cell 31 63) ∧
    (∃ t, step (ready (cellSet State.reset 31 63) 0x00E0) = .next t ∧
      t.fb.cell 31 63 ≠ (ready (cellSet State.reset 31 63) 0x00E0).fb.cell 31 63) ∧
    (∃ t, step (ready State.reset 0xD015) = .next t ∧
      t.fb.cell 0 0 ≠ (ready State.reset 0xD015).fb.cell 0 0) :=
  ⟨some_next (p := fun t => !t.fb.cell 31 63) _ (by decide) (fun t h => by
      have e : (cellSet (faulted [.reset]) 31 63).fb.cell 31 63 = true := by decide
      rw [e]; simpa using h),
    some_next (p := fun t => !t.fb.cell 31 63) _ (by decide) (fun t h => by
      have e : (ready (cellSet State.reset 31 63) 0x00E0).fb.cell 31 63 = true := by decide
      rw [e]; simpa using h),
    some_next (p := fun t => t.fb.cell 0 0) _ (by decide) (fun t h => by
      have e : (ready State.reset 0xD015).fb.cell 0 0 = false := by decide
      rw [e]; simpa using h)⟩

theorem witness_OnlyResetCallAndReturnChangeTheStack :
    (∃ t, step { faulted [.reset] with stack := [0x0202] } = .next t ∧ t.stack ≠ [0x0202]) ∧
    (∃ t, step (ready State.reset 0x2300) = .next t ∧ t.stack ≠ []) ∧
    (∃ t, step (ready { State.reset with stack := [0x0202] } 0x00EE) = .next t ∧ t.stack ≠ [0x0202]) :=
  ⟨some_next (p := fun t => t.stack != [0x0202]) _ (by decide) (by simp),
    some_next (p := fun t => t.stack != []) _ (by decide) (by simp),
    some_next (p := fun t => t.stack != [0x0202]) _ (by decide) (by simp)⟩

/-- A core about to run a store that wraps over the font. -/
def storing (op : Word) : State := ready { regs [(0, 0xEA), (1, 0x11)] with i := 0x0FFF } op

/-- A core whose font has been overwritten, about to be reset. -/
def fontOverwritten : State := bytesAt (faulted [.reset]) 0x000 [0x00]

theorem witness_OnlyStoresLoadsAndResetChangeMemory :
    ((storing 0xF033).mem.wf = true ∧ ∃ t, step (storing 0xF033) = .next t ∧
      t.readByte 0x000 ≠ (storing 0xF033).readByte 0x000) ∧
    ((storing 0xF155).mem.wf = true ∧ ∃ t, step (storing 0xF155) = .next t ∧
      t.readByte 0xFFF ≠ (storing 0xF155).readByte 0xFFF) ∧
    (State.reset.mem.wf = true ∧ ∃ t, step (waiting [.loadProgram [0x12, 0x00]]) = .next t ∧
      t.readByte 0x200 ≠ (waiting [.loadProgram [0x12, 0x00]]).readByte 0x200) ∧
    (fontOverwritten.mem.wf = true ∧ ∃ t, step fontOverwritten = .next t ∧
      t.readByte 0x000 ≠ fontOverwritten.readByte 0x000) :=
  ⟨⟨by decide, some_next (p := fun t => t.readByte 0x000 == 0x03) _ (by decide) (fun t h => by
      rw [beq_iff_eq.1 h]; decide)⟩,
    ⟨by decide, some_next (p := fun t => t.readByte 0xFFF == 0xEA) _ (by decide) (fun t h => by
      rw [beq_iff_eq.1 h]; decide)⟩,
    ⟨by decide, some_next (p := fun t => t.readByte 0x200 == 0x12) _ (by decide) (fun t h => by
      rw [beq_iff_eq.1 h]; decide)⟩,
    ⟨by decide, some_next (p := fun t => t.readByte 0x000 == 0xF0) _ (by decide) (fun t h => by
      rw [beq_iff_eq.1 h]; decide)⟩⟩

theorem witness_OnlyFlagFormsAndDestinationsChangeVF :
    (∃ t, step (ready (regs [(0, 0xFF), (1, 0x01)]) 0x8014) = .next t ∧ t.readV VF ≠ 0x00) ∧
    (∃ t, step (ready State.reset 0x6F01) = .next t ∧ t.readV VF ≠ 0x00) ∧
    (∃ t, step { waiting [.deliverKey 15] with wait := some VF } = .next t ∧ t.readV VF ≠ 0x00) ∧
    (∃ t, step ((regs [(VF, 0x01)]).setHost [.reset]) = .next t ∧ t.readV VF ≠ 0x01) :=
  ⟨some_next (p := fun t => t.readV VF != 0x00) _ (by decide) (by simp),
    some_next (p := fun t => t.readV VF != 0x00) _ (by decide) (by simp),
    some_next (p := fun t => t.readV VF != 0x00) _ (by decide) (by simp),
    some_next (p := fun t => t.readV VF != 0x01) _ (by decide) (by simp)⟩

theorem witness_ReturnPopsTheTopOrLatchesUnderflow :
    ({ State.reset with stack := [0x0202, 0x1000] }).stack = [0x0202] ++ [0x1000] ∧
      State.reset.stack = [] := ⟨rfl, rfl⟩

/-- A core with a finite stack of two entries. -/
def shallow (k : List Word) : State :=
  params { State.reset with stack := k } (fun p => { p with stackDepth := some 2 })

theorem witness_CallPushesTheReturnAddressOrLatchesOverflow :
    (∀ d, State.reset.params.stackDepth = some d → State.reset.stack.length < d) ∧
    (∀ d, (shallow [0x0300]).params.stackDepth = some d → (shallow [0x0300]).stack.length < d) ∧
    ((shallow [0x0300, 0x0302]).params.stackDepth = some 2 ∧
      2 ≤ (shallow [0x0300, 0x0302]).stack.length) := by
  refine ⟨?_, ?_, rfl, by decide⟩
  · simp [State.reset, defaultParams]
  · intro d hd
    cases hd
    decide

theorem witness_ReturnUndoesCall :
    (∀ d, State.reset.params.stackDepth = some d → State.reset.stack.length < d) ∧
      ∃ t w, exec (.call 0x300) State.reset = .next t ∧ exec .ret t = .next w :=
  ⟨by simp [State.reset, defaultParams], _, _, rfl, rfl⟩

theorem witness_ShiftsFollowTheQuirkStrap :
    (0x81 : Byte) = (if (regs [(1, 0x81)]).params.quirkShift = true then (regs [(1, 0x81)]).readV 2
      else (regs [(1, 0x81)]).readV 1) := by decide

theorem witness_BcdStoresThreeDigits : (storing 0xF033).mem.wf = true := by decide

theorem witness_StoreRegistersWritesTheRun : (storing 0xF155).mem.wf = true := by decide

theorem witness_LoadAfterStoreRestoresTheRegisters :
    ∃ t w, (storing 0xF155).mem.wf = true ∧ exec (.storeRegs 1) (storing 0xF155) = .next t ∧
      exec (.loadRegs 1) ((t.setRegs (Vector.replicate 16 0x00)).setI (storing 0xF155).i) = .next w :=
  ⟨_, _, by decide, rfl, rfl⟩

/-- `V0`, `V1` stored over the last word of memory, which is the next to be fetched. -/
theorem witness_StoredBytesAreFetched :
    let s : State := { regs [(0, 0x12), (1, 0x34)] with i := 0x0FFE, pc := 0x0FFE }
    s.mem.wf = true ∧ (∃ t, exec (.storeRegs 1) s = .next t) ∧ (1 : RegIx) ≤ 1 ∧
      (1 : RegIx).val = (0 : RegIx).val + 1 ∧ s.pc.toNat ≤ 0xFFE ∧ (s.ea 0).toNat = s.pc.toNat :=
  ⟨by decide, ⟨_, rfl⟩, by decide, by decide, by decide, by decide⟩

/-- Both clauses of a draw: a landed bit on a set cell, and none. -/
theorem witness_DrawXorsTheSpriteAndReportsCollision :
    (∃ r c, (cellSet State.reset 0 0).spriteBit 0 1 5 r c = true ∧
      (cellSet State.reset 0 0).fb.cell r c = true) ∧
    (∀ r c, State.reset.spriteBit 0 1 0 r c = true → State.reset.fb.cell r c = false) := by
  refine ⟨⟨0, 0, by decide, by decide⟩, fun r c h => ?_⟩
  simp only [State.spriteBit, Bool.and_eq_true, decide_eq_true_eq] at h
  omega

theorem witness_DoubleDrawRestoresTheFrameBuffer :
    ∃ t u, exec (.drw 0 1 5) State.reset = .next t ∧ t.readV 0 = State.reset.readV 0 ∧
      t.readV 1 = State.reset.readV 1 ∧ exec (.drw 0 1 5) t = .next u :=
  ⟨_, _, rfl, by decide, by decide, rfl⟩

theorem witness_KeySkipsFollowTheKeyLevel :
    ((regs [(0, 0x00)]).readV 0).toNat = (0 : Fin 16).val ∧
      ((regs [(0, 0x0F)]).readV 0).toNat = (15 : Fin 16).val := by decide

theorem witness_KeyNumbersAbove15FollowThePolicy :
    16 ≤ ((regs [(0, 0x10)]).readV 0).toNat ∧ (regs [(0, 0x10)]).params.keyOor = .notPressed ∧
      (16 ≤ ((params (regs [(0, 0xFF)]) (fun p => { p with keyOor := .mask4 })).readV 0).toNat ∧
        (params (regs [(0, 0xFF)]) (fun p => { p with keyOor := .mask4 })).params.keyOor = .mask4 ∧
        ((params (regs [(0, 0xFF)]) (fun p => { p with keyOor := .mask4 })).readV 0).toNat % 16 =
          (15 : Fin 16).val) ∧
      (16 ≤ ((params (regs [(0, 0x10)]) (fun p => { p with keyOor := .fault })).readV 0).toNat ∧
        (params (regs [(0, 0x10)]) (fun p => { p with keyOor := .fault })).params.keyOor = .fault) := by
  decide

theorem witness_KeyWaitEndsAtTheDeliveredKey :
    15 < 16 ∧ (waiting [.step key5 0xA7, .deliverKey 15, .tick]).fault = none ∧
      (waiting [.step key5 0xA7, .deliverKey 15, .tick]).wait = some 5 ∧
      (waiting [.step key5 0xA7, .deliverKey 15, .tick]).host =
        [(key5, (0xA7 : Byte))].map (fun p => HostOp.step p.1 p.2) ++ .deliverKey 15 :: [.tick] :=
  ⟨by decide, rfl, rfl, rfl⟩

theorem witness_DeliverKeyWritesTheWaitingRegister :
    (waiting [.deliverKey 15]).host = .deliverKey 15 :: [] ∧ 15 < 16 ∧
      (waiting [.deliverKey 15]).wait = some 5 ∧ (faulted [.deliverKey 0]).host = .deliverKey 0 :: [] ∧
      (faulted [.deliverKey 0]).wait = none ∧ (waiting [.deliverKey 16]).host = .deliverKey 16 :: [] ∧
      16 ≤ 16 := ⟨rfl, by decide, rfl, rfl, rfl, rfl, by decide⟩

theorem witness_TickCountsBothTimersDown :
    ({ waiting [.tick, .tick] with dt := 0x01 }).host = .tick :: [.tick] ∧
      (faulted [.tick]).host = .tick :: [] := ⟨rfl, rfl⟩

theorem witness_RepeatedTicksFloorAtZero :
    ({ waiting [.tick, .tick, .reset] with dt := 0x01 }).host = List.replicate 2 .tick ++ [.reset] := rfl

theorem witness_LoadProgramCopiesTheImage :
    State.reset.mem.wf = true ∧ (faulted [.loadProgram [0x12, 0x00]]).host =
        .loadProgram [0x12, 0x00] :: [] ∧
      0x200 + ([0x12, 0x00] : List Byte).length ≤ 0x1000 ∧
      0x200 + (List.replicate 3584 (0xAA : Byte)).length ≤ 0x1000 :=
  ⟨rfl, rfl, by decide, by rw [List.length_replicate]⟩

theorem witness_OversizedLoadIsRejectedWhole :
    (faulted [.loadProgram (List.replicate 3585 0xAA)]).host =
        .loadProgram (List.replicate 3585 0xAA) :: [] ∧
      0x200 + (List.replicate 3585 (0xAA : Byte)).length > 0x1000 :=
  ⟨rfl, by rw [List.length_replicate]; decide⟩

theorem witness_ResetOperationRestoresTheCore :
    fontOverwritten.mem.wf = true ∧ fontOverwritten.host = .reset :: [] := ⟨by decide, rfl⟩

end Sys2Proof.Tests
end

section
/-! PROOFS. The memory family (20_memory.md): the fetched word, byte by byte (R52). -/

namespace Sys2Proof.Machine

/-- The two bytes of a word do not overlap and fit in 16 bits, so the truncation in `wordOfBytes` loses
nothing (R52). -/
@[simp] theorem wordOfBytes_toNat (hi lo : Byte) :
    (wordOfBytes hi lo).toNat = hi.toNat * 256 + lo.toNat := by
  have hhi : hi.toNat < 256 := hi.isLt
  have hlo : lo.toNat < 256 := lo.isLt
  rw [wordOfBytes, BitVec.toNat_ofNat]
  exact Nat.mod_eq_of_lt (by omega)

/-- The fetch reads the addresses that stand at `PC` and `PC + 1`, however they are written. -/
theorem fetchWord_eq_wordOfBytes {s : State} {a b : Addr} (ha : a.toNat = s.pc.toNat)
    (hb : b.toNat = s.pc.toNat + 1) : s.fetchWord = wordOfBytes (s.readByte a) (s.readByte b) := by
  rw [State.fetchWord, ← hb, ← ha, BitVec.ofNat_toNat, BitVec.ofNat_toNat, BitVec.setWidth_eq,
    BitVec.setWidth_eq]

/-- Settles O6: the word fetched is `wordOfBytes` of the two bytes, the one at `PC` first. -/
theorem fetchIsBigEndian : Obligations.FetchIsBigEndian := by
  intro s _ a b ha hb
  rw [fetchWord_eq_wordOfBytes ha hb, wordOfBytes_toNat]

end Sys2Proof.Machine
end

section
/-! PROOFS. The control transfer family (41_flow.md): the plain jump, the register skips, the indexed jump
(R112, R114 to R118). -/

namespace Sys2Proof.Machine

/-- The sum of a register and an address is at most 0xFF + 0xFFF: no bit of it is lost in `PC` (R118). -/
theorem byte_add_addr_le (b : Byte) (a : Addr) : b.toNat + a.toNat ≤ 0x10FE := by
  have hb : b.toNat < 256 := b.isLt
  have ha : a.toNat < 4096 := a.isLt
  omega

/-- A form that skips on equality (R110): where its `PC` goes, and its frame. -/
theorem exec_skip_of_beq {i : Instr} {s : State} {a b : Byte} (h : exec i s = .next (s.skipIf (a == b))) :
    ∃ t, exec i s = .next t ∧ t.pc = (if a = b then s.pc + 2 else s.pc) ∧ s.unchangedBut t [.pc] := by
  refine ⟨_, h, ?_, s.frame_skipIf _⟩
  by_cases hab : a = b <;> simp [hab]

/-- A form that skips on inequality (R110): where its `PC` goes, and its frame. -/
theorem exec_skip_of_bne {i : Instr} {s : State} {a b : Byte} (h : exec i s = .next (s.skipIf (a != b))) :
    ∃ t, exec i s = .next t ∧ t.pc = (if a = b then s.pc else s.pc + 2) ∧ s.unchangedBut t [.pc] := by
  refine ⟨_, h, ?_, s.frame_skipIf _⟩
  by_cases hab : a = b <;> simp [hab]

/-- Settles O22: widening the 12-bit address to 16 bits keeps its value, and only `PC` is written. -/
theorem jumpSetsPc : Obligations.JumpSetsPc := by
  intro nnn s
  have hwide : (nnn.setWidth 16).toNat = nnn.toNat := BitVec.toNat_setWidth_of_le (by decide)
  exact ⟨s.setPc (nnn.setWidth 16), rfl, hwide, s.frame_setPc _⟩

/-- Settles O25: two of the forms skip on equality, two on inequality. -/
theorem registerSkipsTestAndSkip : Obligations.RegisterSkipsTestAndSkip :=
  ⟨fun _ _ _ => exec_skip_of_beq rfl, fun _ _ _ => exec_skip_of_bne rfl,
    fun _ _ _ => exec_skip_of_beq rfl, fun _ _ _ => exec_skip_of_bne rfl⟩

/-- Settles O26: the sum is below 65536, so `PC` holds it whole. -/
theorem indexedJumpAddsV0 : Obligations.IndexedJumpAddsV0 := by
  intro nnn s
  have hle : (s.readV 0).toNat + nnn.toNat ≤ 0x10FE := byte_add_addr_le _ _
  have hpc : (BitVec.ofNat 16 ((s.readV 0).toNat + nnn.toNat)).toNat = (s.readV 0).toNat + nnn.toNat := by
    rw [BitVec.toNat_ofNat]
    exact Nat.mod_eq_of_lt (by omega)
  exact ⟨s.setPc _, rfl, hpc, hpc.trans_le hle, s.frame_setPc _⟩

end Sys2Proof.Machine
end

section
/-! PROOFS. The register load, arithmetic and logic family (42_alu.md): the forms that write one register, and
those that write a result and the flag in either order of R96 (R130 to R136). -/

namespace Sys2Proof.Machine

/-! ## The two write orders, register by register -/

@[simp] theorem State.resultThenFlag_readV_VF (s : State) (x : RegIx) (result flag : Byte) :
    (s.resultThenFlag x result flag).readV VF = flag := by
  simp [State.resultThenFlag_readV]

@[simp] theorem State.resultThenFlag_readV_self (s : State) {x : RegIx} (result flag : Byte) (hx : x ≠ VF) :
    (s.resultThenFlag x result flag).readV x = result := by
  simp [State.resultThenFlag_readV, hx]

@[simp] theorem State.flagThenResult_readV_self (s : State) (x : RegIx) (flag result : Byte) :
    (s.flagThenResult x flag result).readV x = result := by
  simp [State.flagThenResult_readV]

@[simp] theorem State.flagThenResult_readV_VF (s : State) {x : RegIx} (flag result : Byte) (hx : x ≠ VF) :
    (s.flagThenResult x flag result).readV VF = flag := by
  simp [State.flagThenResult_readV, hx.symm]

/-! ## Which registers each write leaves alone -/

theorem State.regsUnchangedBut_setV (s : State) (x : RegIx) (b : Byte) :
    s.regsUnchangedBut (s.setV x b) [x] :=
  fun _ hq => s.setV_readV_ne b (mt List.mem_singleton.2 hq)

theorem State.regsUnchangedBut_resultThenFlag (s : State) (x : RegIx) (result flag : Byte) :
    s.regsUnchangedBut (s.resultThenFlag x result flag) [x, VF] := by
  intro q hq
  obtain ⟨hx, hf⟩ : q ≠ x ∧ q ≠ VF := by simpa using hq
  simp [State.resultThenFlag_readV, hx, hf]

theorem State.regsUnchangedBut_flagThenResult (s : State) (x : RegIx) (flag result : Byte) :
    s.regsUnchangedBut (s.flagThenResult x flag result) [x, VF] := by
  intro q hq
  obtain ⟨hx, hf⟩ : q ≠ x ∧ q ≠ VF := by simpa using hq
  simp [State.flagThenResult_readV, hx, hf]

/-! ## What a form does that writes in one of these ways -/

/-- A form that writes one register: the value there, and its frames. -/
theorem exec_writes_register {i : Instr} {s : State} {x : RegIx} {b : Byte}
    (h : exec i s = .next (s.setV x b)) :
    ∃ t, exec i s = .next t ∧ t.readV x = b ∧ s.regsUnchangedBut t [x] ∧ s.unchangedBut t [.regs] :=
  ⟨_, h, s.setV_readV_self x b, s.regsUnchangedBut_setV x b, s.frame_setV x b⟩

/-- A form that writes its result, then the flag (R96): the flag stays when both go to `VF`. -/
theorem exec_writes_result_then_flag {i : Instr} {s : State} {x : RegIx} {result flag : Byte}
    (h : exec i s = .next (s.resultThenFlag x result flag)) :
    ∃ t, exec i s = .next t ∧ (x ≠ VF → t.readV x = result) ∧ t.readV VF = flag ∧
      s.regsUnchangedBut t [x, VF] ∧ s.unchangedBut t [.regs] :=
  ⟨_, h, s.resultThenFlag_readV_self result flag, s.resultThenFlag_readV_VF x result flag,
    s.regsUnchangedBut_resultThenFlag x result flag, s.frame_resultThenFlag x result flag⟩

/-- A form that writes the flag, then its result (R96): the result stays when both go to `VF`. -/
theorem exec_writes_flag_then_result {i : Instr} {s : State} {x : RegIx} {flag result : Byte}
    (h : exec i s = .next (s.flagThenResult x flag result)) :
    ∃ t, exec i s = .next t ∧ t.readV x = result ∧ (x ≠ VF → t.readV VF = flag) ∧
      s.regsUnchangedBut t [x, VF] ∧ s.unchangedBut t [.regs] :=
  ⟨_, h, s.flagThenResult_readV_self x flag result, s.flagThenResult_readV_VF flag result,
    s.regsUnchangedBut_flagThenResult x flag result, s.frame_flagThenResult x flag result⟩

/-! ## The sum and its carry (R143) -/

@[simp] theorem sumByte_toNat (a b : Byte) : (sumByte a b).toNat = (a.toNat + b.toNat) % 256 :=
  BitVec.toNat_ofNat _ _

theorem carryFlag_eq (a b : Byte) :
    carryFlag a b = if a.toNat + b.toNat > 255 then 0x01 else 0x00 := by
  simp [carryFlag, flagByte]

/-! ## The forms -/

/-- Settles O27: the constant is the one byte written. -/
theorem loadImmediateWritesTheConstant : Obligations.LoadImmediateWritesTheConstant :=
  fun _ _ _ => exec_writes_register rfl

/-- Settles O28: the sum is the one byte written, so `VF` records no carry. -/
theorem addImmediateRecordsNoCarry : Obligations.AddImmediateRecordsNoCarry := by
  intro x kk s
  obtain ⟨t, hexec, hx, hregs, hframe⟩ :=
    exec_writes_register (i := .addImm x kk) (s := s) (b := sumByte (s.readV x) kk) rfl
  exact ⟨t, hexec, hx ▸ sumByte_toNat _ _, hregs, hframe⟩

/-- Settles O29: the source is the one byte written. -/
theorem copyRegisterWritesTheSource : Obligations.CopyRegisterWritesTheSource :=
  fun _ _ _ => exec_writes_register rfl

/-- Settles O30: the three forms write their result, then the flag 0, so `VF` is 0 even when `x` is 0xF. -/
theorem logicFormsWriteTheResultThenClearVF : Obligations.LogicFormsWriteTheResultThenClearVF :=
  fun _ _ _ => ⟨exec_writes_result_then_flag rfl, exec_writes_result_then_flag rfl,
    exec_writes_result_then_flag rfl⟩

/-- Settles O31: the carry is written before the sum, so the sum remains when `x` is 0xF. -/
theorem addWritesTheSumAndCarry : Obligations.AddWritesTheSumAndCarry := by
  intro x y s
  obtain ⟨t, hexec, hx, hflag, hregs, hframe⟩ := exec_writes_flag_then_result (i := .addReg x y) (s := s)
    (flag := carryFlag (s.readV x) (s.readV y)) (result := sumByte (s.readV x) (s.readV y)) rfl
  exact ⟨t, hexec, hx ▸ sumByte_toNat _ _, fun hne => (hflag hne).trans (carryFlag_eq _ _), hregs, hframe⟩

end Sys2Proof.Machine
end

section
/-! PROOFS. The index family (43_index_memory.md): the forms that write `I` and nothing else (R160, R162). -/

namespace Sys2Proof.Machine

/-- A form that writes only the index register: the value there, and its frame. -/
theorem exec_writes_index {i : Instr} {s : State} {w : Word} (h : exec i s = .next (s.setI w)) :
    ∃ t, exec i s = .next t ∧ t.i = w ∧ s.unchangedBut t [.index] :=
  ⟨_, h, s.setI_i w, s.frame_setI w⟩

/-- The 12-bit address loses no bit in the 16-bit index register. -/
theorem Addr.setWidth_word_toNat (a : Addr) : (a.setWidth 16).toNat = a.toNat :=
  BitVec.toNat_setWidth_of_le (by decide)

/-- Five times a byte is at most 1275, so the product stays below 65536 (R162). -/
theorem Byte.fiveTimes_word_toNat (b : Byte) : (BitVec.ofNat 16 (b.toNat * 5)).toNat = b.toNat * 5 := by
  have hb : b.toNat < 256 := b.isLt
  exact (BitVec.toNat_ofNat _ _).trans (Nat.mod_eq_of_lt (by omega))

/-- Settles O36: the zero-extended address is the one word written, to `I`. -/
theorem loadIndexWritesTheAddress : Obligations.LoadIndexWritesTheAddress := by
  intro nnn s
  obtain ⟨t, hexec, hi, hframe⟩ :=
    exec_writes_index (i := .ldI nnn) (s := s) (w := nnn.setWidth 16) rfl
  exact ⟨t, hexec, hi ▸ Addr.setWidth_word_toNat nnn, hframe⟩

/-- Settles O38: the product of the whole byte is the one word written, to `I`, and does not wrap. -/
theorem fontAddressIsFiveTimesTheByte : Obligations.FontAddressIsFiveTimesTheByte := by
  intro x s
  obtain ⟨t, hexec, hi, hframe⟩ := exec_writes_index (i := .ldF x) (s := s)
    (w := BitVec.ofNat 16 ((s.readV x).toNat * 5)) rfl
  exact ⟨t, hexec, hi ▸ Byte.fiveTimes_word_toNat (s.readV x), hframe⟩

end Sys2Proof.Machine
end

section
/-! PROOFS. The keys and timers family (45_keys_timers.md): the forms that read or write one timer (R192, R194,
R195), and the sound that follows `ST` (R225). -/

namespace Sys2Proof.Machine

/-- R225: the sound is on exactly while `ST` is above 0. -/
@[simp] theorem soundActive_iff (s : State) : soundActive s = true ↔ 0 < s.st.toNat :=
  decide_eq_true_iff

/-- A form that writes only the delay timer: the value there, and its frame. -/
theorem exec_writes_delay_timer {i : Instr} {s : State} {b : Byte} (h : exec i s = .next (s.setDt b)) :
    ∃ t, exec i s = .next t ∧ t.dt = b ∧ s.unchangedBut t [.dt] :=
  ⟨_, h, s.setDt_dt b, s.frame_setDt b⟩

/-- A form that writes only the sound timer: the value there, the sound it turns on or off, and its frame. -/
theorem exec_writes_sound_timer {i : Instr} {s : State} {b : Byte} (h : exec i s = .next (s.setSt b)) :
    ∃ t, exec i s = .next t ∧ t.st = b ∧ (soundActive t = true ↔ 0 < b.toNat) ∧ s.unchangedBut t [.st] :=
  ⟨_, h, s.setSt_st b, soundActive_iff (s.setSt b), s.frame_setSt b⟩

/-- Settles O49: Fx07 writes one register, Fx15 the delay timer and Fx18 the sound timer, and each writes that
byte alone. -/
theorem timerFormsMoveOneByte : Obligations.TimerFormsMoveOneByte :=
  fun _ _ => ⟨exec_writes_register rfl, exec_writes_delay_timer rfl, exec_writes_sound_timer rfl⟩

end Sys2Proof.Machine
end

section
/-! PROOFS. The encoding family (30_encoding.md): the decoder by the major of the word, the round trip both
ways, the rows of the table, and the illegal words (R73 to R77). -/

namespace Sys2Proof

/-! ## The decoder, major by major (R73) -/

section
variable {op : Word}

theorem decodeWord_major1 (h : majorField op = 0x1#4) : decodeWord op = some (.jp (nnnField op)) := by
  simp [decodeWord, h]
theorem decodeWord_major2 (h : majorField op = 0x2#4) : decodeWord op = some (.call (nnnField op)) := by
  simp [decodeWord, h]
theorem decodeWord_major3 (h : majorField op = 0x3#4) :
    decodeWord op = some (.seImm (xField op) (kkField op)) := by simp [decodeWord, h]
theorem decodeWord_major4 (h : majorField op = 0x4#4) :
    decodeWord op = some (.sneImm (xField op) (kkField op)) := by simp [decodeWord, h]
theorem decodeWord_major5 (h : majorField op = 0x5#4) : decodeWord op =
    if nField op = 0x0#4 then some (.seReg (xField op) (yField op)) else none := by simp [decodeWord, h]
theorem decodeWord_major6 (h : majorField op = 0x6#4) :
    decodeWord op = some (.ldImm (xField op) (kkField op)) := by simp [decodeWord, h]
theorem decodeWord_major7 (h : majorField op = 0x7#4) :
    decodeWord op = some (.addImm (xField op) (kkField op)) := by simp [decodeWord, h]
theorem decodeWord_major8 (h : majorField op = 0x8#4) : decodeWord op = decodeMajor8 op := by
  simp [decodeWord, h]
theorem decodeWord_major9 (h : majorField op = 0x9#4) : decodeWord op =
    if nField op = 0x0#4 then some (.sneReg (xField op) (yField op)) else none := by simp [decodeWord, h]
theorem decodeWord_majorA (h : majorField op = 0xA#4) : decodeWord op = some (.ldI (nnnField op)) := by
  simp [decodeWord, h]
theorem decodeWord_majorB (h : majorField op = 0xB#4) : decodeWord op = some (.jpV0 (nnnField op)) := by
  simp [decodeWord, h]
theorem decodeWord_majorC (h : majorField op = 0xC#4) :
    decodeWord op = some (.rnd (xField op) (kkField op)) := by simp [decodeWord, h]
theorem decodeWord_majorD (h : majorField op = 0xD#4) :
    decodeWord op = some (.drw (xField op) (yField op) (nField op).toNat) := by simp [decodeWord, h]
theorem decodeWord_majorE (h : majorField op = 0xE#4) : decodeWord op = decodeMajorE op := by
  simp [decodeWord, h]
theorem decodeWord_majorF (h : majorField op = 0xF#4) : decodeWord op = decodeMajorF op := by
  simp [decodeWord, h]

end

/-! ## A word is made of its fields (R71, R72) -/

section
variable {op : Word} {major : Nat}

theorem major_of_majorField (hm : majorField op = BitVec.ofNat 4 major) (hlt : major < 16) :
    op.toNat / 4096 = major := by
  have h := congrArg BitVec.toNat hm
  simp only [majorField, BitVec.extractLsb'_toNat, BitVec.toNat_ofNat] at h
  omega

theorem encodeNNN_of_fields (hm : majorField op = BitVec.ofNat 4 major) (hlt : major < 16) :
    encodeNNN major (nnnField op) = op := by
  have h := major_of_majorField hm hlt
  apply BitVec.eq_of_toNat_eq
  simp [nnnField, encodeNNN, BitVec.extractLsb'_toNat]
  omega

theorem encodeXKK_of_fields (hm : majorField op = BitVec.ofNat 4 major) (hlt : major < 16) :
    encodeXKK major (xField op) (kkField op) = op := by
  have h := major_of_majorField hm hlt
  apply BitVec.eq_of_toNat_eq
  simp [xField, kkField, encodeXKK, BitVec.extractLsb'_toNat]
  omega

theorem encodeXYN_of_fields (hm : majorField op = BitVec.ofNat 4 major) (hlt : major < 16) :
    encodeXYN major (xField op) (yField op) (nField op).toNat = op := by
  have h := major_of_majorField hm hlt
  apply BitVec.eq_of_toNat_eq
  simp [xField, yField, nField, encodeXYN, BitVec.extractLsb'_toNat]
  omega

/-- Format XY: the low nibble is the minor (R72). -/
theorem encodeXY_of_fields {minor : Nat} (hm : majorField op = BitVec.ofNat 4 major)
    (hn : nField op = BitVec.ofNat 4 minor) (hlt : major < 16) (hlt' : minor < 16) :
    encodeXYN major (xField op) (yField op) minor = op := by
  have h := encodeXYN_of_fields hm hlt
  rwa [hn, BitVec.toNat_ofNat, Nat.mod_eq_of_lt hlt'] at h

/-- Format XF: the low byte is the minor (R72). -/
theorem encodeXF_of_fields {low : Nat} (hm : majorField op = BitVec.ofNat 4 major)
    (hk : kkField op = BitVec.ofNat 8 low) (hlt : major < 16) (hlt' : low < 256) :
    encodeXF major (xField op) low = op := by
  have h := encodeXKK_of_fields hm hlt
  rwa [hk, encodeXKK, BitVec.toNat_ofNat, Nat.mod_eq_of_lt hlt'] at h

end

/-! ## What a word decodes to encodes back to it -/

section
variable {op : Word} {i : Instr}

theorem encode_decodeMajor0 (hm : majorField op = 0x0#4) (h : decodeMajor0 op = some i) :
    i.wellFormed = true ∧ encode i = op := by
  unfold decodeMajor0 at h
  have hw := encodeNNN_of_fields hm (by decide)
  split at h
  case h_1 hn => cases h; rw [hn] at hw; exact ⟨rfl, hw⟩
  case h_2 hn => cases h; rw [hn] at hw; exact ⟨rfl, hw⟩
  case h_3 => cases h

theorem encode_decodeMajor8 (hm : majorField op = 0x8#4) (h : decodeMajor8 op = some i) :
    i.wellFormed = true ∧ encode i = op := by
  unfold decodeMajor8 at h
  split at h
  case h_10 => cases h
  all_goals
    cases h
    exact ⟨rfl, encodeXY_of_fields hm ‹_› (by decide) (by decide)⟩

theorem encode_decodeMajorE (hm : majorField op = 0xE#4) (h : decodeMajorE op = some i) :
    i.wellFormed = true ∧ encode i = op := by
  unfold decodeMajorE at h
  split at h
  case h_3 => cases h
  all_goals
    cases h
    exact ⟨rfl, encodeXF_of_fields hm ‹_› (by decide) (by decide)⟩

theorem encode_decodeMajorF (hm : majorField op = 0xF#4) (h : decodeMajorF op = some i) :
    i.wellFormed = true ∧ encode i = op := by
  unfold decodeMajorF at h
  split at h
  case h_10 => cases h
  all_goals
    cases h
    exact ⟨rfl, encodeXF_of_fields hm ‹_› (by decide) (by decide)⟩

end

/-- The row count that the decoder takes from four bits is below 16 (R74). -/
theorem wellFormed_drw (x y : RegIx) (n : BitVec 4) : (Instr.drw x y n.toNat).wellFormed = true :=
  decide_eq_true n.isLt

/-- Settles O2: the decoder's branch for the word's major names the format, and a word in that format is made of
its fields. -/
theorem encodeOfDecodeIsIdentity : Obligations.EncodeOfDecodeIsIdentity := by
  intro op i h
  unfold decodeWord at h
  split at h
  case h_1 hm => exact encode_decodeMajor0 hm h
  case h_2 hm => cases h; exact ⟨rfl, encodeNNN_of_fields hm (by decide)⟩
  case h_3 hm => cases h; exact ⟨rfl, encodeNNN_of_fields hm (by decide)⟩
  case h_4 hm => cases h; exact ⟨rfl, encodeXKK_of_fields hm (by decide)⟩
  case h_5 hm => cases h; exact ⟨rfl, encodeXKK_of_fields hm (by decide)⟩
  case h_6 hm =>
    obtain ⟨hn, hi⟩ := Option.ite_none_right_eq_some.1 h
    cases hi; exact ⟨rfl, encodeXY_of_fields hm hn (by decide) (by decide)⟩
  case h_7 hm => cases h; exact ⟨rfl, encodeXKK_of_fields hm (by decide)⟩
  case h_8 hm => cases h; exact ⟨rfl, encodeXKK_of_fields hm (by decide)⟩
  case h_9 hm => exact encode_decodeMajor8 hm h
  case h_10 hm =>
    obtain ⟨hn, hi⟩ := Option.ite_none_right_eq_some.1 h
    cases hi; exact ⟨rfl, encodeXY_of_fields hm hn (by decide) (by decide)⟩
  case h_11 hm => cases h; exact ⟨rfl, encodeNNN_of_fields hm (by decide)⟩
  case h_12 hm => cases h; exact ⟨rfl, encodeNNN_of_fields hm (by decide)⟩
  case h_13 hm => cases h; exact ⟨rfl, encodeXKK_of_fields hm (by decide)⟩
  case h_14 hm => cases h; exact ⟨wellFormed_drw .., encodeXYN_of_fields hm (by decide)⟩
  case h_15 hm => exact encode_decodeMajorE hm h
  case h_16 hm => exact encode_decodeMajorF hm h
  case h_17 => cases h

/-! ## Decoding an encoded word, format by format -/

section
variable (m n : BitVec 4) (x y : RegIx)

theorem decodeWord_encodeNNN {f : Addr → Instr}
    (hf : ∀ op, majorField op = m → decodeWord op = some (f (nnnField op))) (nnn : Addr) :
    decodeWord (encodeNNN m.toNat nnn) = some (f nnn) := by
  rw [hf _ (majorField_encodeNNN m nnn), nnnField_encodeNNN]

theorem decodeWord_encodeXKK {f : RegIx → Byte → Instr}
    (hf : ∀ op, majorField op = m → decodeWord op = some (f (xField op) (kkField op))) (kk : Byte) :
    decodeWord (encodeXKK m.toNat x kk) = some (f x kk) := by
  rw [hf _ (majorField_encodeXKK m x kk), xField_encodeXKK, kkField_encodeXKK]

theorem decodeWord_encodeXY {f : RegIx → RegIx → Instr}
    (hf : ∀ op, majorField op = m → nField op = n → decodeWord op = some (f (xField op) (yField op))) :
    decodeWord (encodeXYN m.toNat x y n.toNat) = some (f x y) := by
  rw [hf _ (majorField_encodeXYN m n x y) (nField_encodeXYN m n x y), xField_encodeXYN, yField_encodeXYN]

theorem decodeWord_encodeXYN {f : RegIx → RegIx → Nat → Instr}
    (hf : ∀ op, majorField op = m → decodeWord op = some (f (xField op) (yField op) (nField op).toNat)) :
    decodeWord (encodeXYN m.toNat x y n.toNat) = some (f x y n.toNat) := by
  rw [hf _ (majorField_encodeXYN m n x y), xField_encodeXYN, yField_encodeXYN, nField_encodeXYN]

theorem decodeWord_encodeXF (low : Byte) {f : RegIx → Instr}
    (hf : ∀ op, majorField op = m → kkField op = low → decodeWord op = some (f (xField op))) :
    decodeWord (encodeXF m.toNat x low.toNat) = some (f x) := by
  rw [hf _ (majorField_encodeXF m x low) (kkField_encodeXF m x low), xField_encodeXF]

/-- The nine forms of major 8 (R75 rows 10 to 18). -/
theorem decodeWord_encode8 {f : RegIx → RegIx → Instr}
    (hf : ∀ op, nField op = n → decodeMajor8 op = some (f (xField op) (yField op))) :
    decodeWord (encodeXYN 0x8 x y n.toNat) = some (f x y) :=
  decodeWord_encodeXY 0x8#4 n x y (fun op hm hn => (decodeWord_major8 hm).trans (hf op hn))

/-- The two forms of major E (R75 rows 24, 25). -/
theorem decodeWord_encodeE (low : Byte) {f : RegIx → Instr}
    (hf : ∀ op, kkField op = low → decodeMajorE op = some (f (xField op))) :
    decodeWord (encodeXF 0xE x low.toNat) = some (f x) :=
  decodeWord_encodeXF 0xE#4 x low (fun op hm hk => (decodeWord_majorE hm).trans (hf op hk))

/-- The nine forms of major F (R75 rows 26 to 34). -/
theorem decodeWord_encodeF (low : Byte) {f : RegIx → Instr}
    (hf : ∀ op, kkField op = low → decodeMajorF op = some (f (xField op))) :
    decodeWord (encodeXF 0xF x low.toNat) = some (f x) :=
  decodeWord_encodeXF 0xF#4 x low (fun op hm hk => (decodeWord_majorF hm).trans (hf op hk))

end

/-- Every form, by the format of its row. -/
theorem decodeWord_encode {i : Instr} (h : i.wellFormed = true) : decodeWord (encode i) = some i := by
  cases i with
  | cls => rfl
  | ret => rfl
  | jp nnn => exact decodeWord_encodeNNN 0x1#4 (fun _ => decodeWord_major1) nnn
  | call nnn => exact decodeWord_encodeNNN 0x2#4 (fun _ => decodeWord_major2) nnn
  | seImm x kk => exact decodeWord_encodeXKK 0x3#4 x (fun _ => decodeWord_major3) kk
  | sneImm x kk => exact decodeWord_encodeXKK 0x4#4 x (fun _ => decodeWord_major4) kk
  | seReg x y =>
    exact decodeWord_encodeXY 0x5#4 0x0#4 x y (fun _ hm hn => by rw [decodeWord_major5 hm, if_pos hn])
  | ldImm x kk => exact decodeWord_encodeXKK 0x6#4 x (fun _ => decodeWord_major6) kk
  | addImm x kk => exact decodeWord_encodeXKK 0x7#4 x (fun _ => decodeWord_major7) kk
  | ldReg x y => exact decodeWord_encode8 0x0#4 x y (fun _ h => by simp [decodeMajor8, h])
  | orReg x y => exact decodeWord_encode8 0x1#4 x y (fun _ h => by simp [decodeMajor8, h])
  | andReg x y => exact decodeWord_encode8 0x2#4 x y (fun _ h => by simp [decodeMajor8, h])
  | xorReg x y => exact decodeWord_encode8 0x3#4 x y (fun _ h => by simp [decodeMajor8, h])
  | addReg x y => exact decodeWord_encode8 0x4#4 x y (fun _ h => by simp [decodeMajor8, h])
  | subReg x y => exact decodeWord_encode8 0x5#4 x y (fun _ h => by simp [decodeMajor8, h])
  | shr x y => exact decodeWord_encode8 0x6#4 x y (fun _ h => by simp [decodeMajor8, h])
  | subnReg x y => exact decodeWord_encode8 0x7#4 x y (fun _ h => by simp [decodeMajor8, h])
  | shl x y => exact decodeWord_encode8 0xE#4 x y (fun _ h => by simp [decodeMajor8, h])
  | sneReg x y =>
    exact decodeWord_encodeXY 0x9#4 0x0#4 x y (fun _ hm hn => by rw [decodeWord_major9 hm, if_pos hn])
  | ldI nnn => exact decodeWord_encodeNNN 0xA#4 (fun _ => decodeWord_majorA) nnn
  | jpV0 nnn => exact decodeWord_encodeNNN 0xB#4 (fun _ => decodeWord_majorB) nnn
  | rnd x kk => exact decodeWord_encodeXKK 0xC#4 x (fun _ => decodeWord_majorC) kk
  | drw x y n =>
    have hn : (BitVec.ofNat 4 n).toNat = n := by
      rw [BitVec.toNat_ofNat]
      exact Nat.mod_eq_of_lt (of_decide_eq_true h)
    have hd := decodeWord_encodeXYN 0xD#4 (BitVec.ofNat 4 n) x y (fun _ => decodeWord_majorD)
    rw [hn] at hd
    exact hd
  | skp x => exact decodeWord_encodeE x 0x9E#8 (fun _ h => by simp [decodeMajorE, h])
  | sknp x => exact decodeWord_encodeE x 0xA1#8 (fun _ h => by simp [decodeMajorE, h])
  | ldVxDt x => exact decodeWord_encodeF x 0x07#8 (fun _ h => by simp [decodeMajorF, h])
  | ldVxK x => exact decodeWord_encodeF x 0x0A#8 (fun _ h => by simp [decodeMajorF, h])
  | ldDtVx x => exact decodeWord_encodeF x 0x15#8 (fun _ h => by simp [decodeMajorF, h])
  | ldStVx x => exact decodeWord_encodeF x 0x18#8 (fun _ h => by simp [decodeMajorF, h])
  | addI x => exact decodeWord_encodeF x 0x1E#8 (fun _ h => by simp [decodeMajorF, h])
  | ldF x => exact decodeWord_encodeF x 0x29#8 (fun _ h => by simp [decodeMajorF, h])
  | ldB x => exact decodeWord_encodeF x 0x33#8 (fun _ h => by simp [decodeMajorF, h])
  | storeRegs x => exact decodeWord_encodeF x 0x55#8 (fun _ h => by simp [decodeMajorF, h])
  | loadRegs x => exact decodeWord_encodeF x 0x65#8 (fun _ h => by simp [decodeMajorF, h])

/-- Two bytes and what follows them decode as their word does. -/
theorem decode_cons_cons {hi lo : Byte} {rest : List Byte} {i : Instr}
    (h : decodeWord (wordOfBytes hi lo) = some i) : decode (hi :: lo :: rest) = .ok (i, rest) := by
  simp [decode, h]

/-- Settles O1: the word decodes by its format, and its two bytes make up the word again. -/
theorem decodeOfEncodeIsIdentity : Obligations.DecodeOfEncodeIsIdentity := by
  intro i rest h
  have hd := decodeWord_encode h
  exact ⟨hd, decode_cons_cons ((congrArg decodeWord (wordOfBytes_split _)).trans hd)⟩

/-! ## The rows of the table (R73, R75) -/

section
variable {op p : Word}

/-- Mask 0xFFFF: the whole word is tested. -/
theorem eq_of_selects_FFFF (h : (OpcodeRow.mk 0xFFFF p).selects op = true) : p = op :=
  ((BitVec.and_allOnes (x := op)).symm.trans (eq_of_beq h)).symm

/-- The three other masks test the major whole. -/
theorem majorField_of_selects {mask : Word} (hmask : majorField mask = 0xF#4)
    (h : (OpcodeRow.mk mask p).selects op = true) : majorField op = majorField p := by
  obtain ⟨hm, -⟩ := (selects_iff_nibbles _ _).1 h
  rw [← hm, hmask]
  exact BitVec.and_allOnes.symm

/-- Masks 0xF00F and 0xF0FF test the low nibble whole. -/
theorem nField_of_selects {mask : Word} (hmask : nField mask = 0xF#4)
    (h : (OpcodeRow.mk mask p).selects op = true) : nField op = nField p := by
  obtain ⟨-, -, -, hn⟩ := (selects_iff_nibbles _ _).1 h
  rw [← hn, hmask]
  exact BitVec.and_allOnes.symm

/-- Mask 0xF0FF tests the low byte whole. -/
theorem kkField_of_selects (h : (OpcodeRow.mk 0xF0FF p).selects op = true) : kkField op = kkField p := by
  have hk : kkField (op &&& 0xF0FF) = kkField p := congrArg kkField (eq_of_beq h)
  rw [← hk, kkField, kkField, BitVec.extractLsb'_and]
  exact BitVec.and_allOnes.symm

/-- Mask 0xF000, format NNN. -/
theorem encodeNNN_of_selects {major : Nat} (h : (OpcodeRow.mk 0xF000 p).selects op = true)
    (hp : majorField p = BitVec.ofNat 4 major) (hlt : major < 16) :
    encodeNNN major (nnnField op) = op :=
  encodeNNN_of_fields ((majorField_of_selects (by decide) h).trans hp) hlt

/-- Mask 0xF000, format XKK. -/
theorem encodeXKK_of_selects {major : Nat} (h : (OpcodeRow.mk 0xF000 p).selects op = true)
    (hp : majorField p = BitVec.ofNat 4 major) (hlt : major < 16) :
    encodeXKK major (xField op) (kkField op) = op :=
  encodeXKK_of_fields ((majorField_of_selects (by decide) h).trans hp) hlt

/-- Mask 0xF000, format XYN. -/
theorem encodeXYN_of_selects {major : Nat} (h : (OpcodeRow.mk 0xF000 p).selects op = true)
    (hp : majorField p = BitVec.ofNat 4 major) (hlt : major < 16) :
    encodeXYN major (xField op) (yField op) (nField op).toNat = op :=
  encodeXYN_of_fields ((majorField_of_selects (by decide) h).trans hp) hlt

/-- Mask 0xF00F, format XY. -/
theorem encodeXY_of_selects {major minor : Nat} (h : (OpcodeRow.mk 0xF00F p).selects op = true)
    (hp : majorField p = BitVec.ofNat 4 major ∧ nField p = BitVec.ofNat 4 minor ∧ major < 16 ∧
      minor < 16) :
    encodeXYN major (xField op) (yField op) minor = op := by
  obtain ⟨hm, hn, hlt, hlt'⟩ := hp
  exact encodeXY_of_fields ((majorField_of_selects (by decide) h).trans hm)
    ((nField_of_selects (by decide) h).trans hn) hlt hlt'

/-- Mask 0xF0FF, format XF. -/
theorem encodeXF_of_selects {major low : Nat} (h : (OpcodeRow.mk 0xF0FF p).selects op = true)
    (hp : majorField p = BitVec.ofNat 4 major ∧ kkField p = BitVec.ofNat 8 low ∧ major < 16 ∧
      low < 256) :
    encodeXF major (xField op) low = op := by
  obtain ⟨hm, hk, hlt, hlt'⟩ := hp
  exact encodeXF_of_fields ((majorField_of_selects (by decide) h).trans hm)
    ((kkField_of_selects h).trans hk) hlt hlt'

end

/-- A word that a row selects is the word of some instruction of that row. -/
theorem exists_encode_of_selects {op : Word} : ∀ (k : Nat) (r : OpcodeRow), opcodeRows[k]? = some r →
    r.selects op = true → ∃ i : Instr, i.wellFormed = true ∧ encode i = op ∧ i.rowIndex = k
  | 0, _, rfl, h => ⟨.cls, rfl, eq_of_selects_FFFF h, rfl⟩
  | 1, _, rfl, h => ⟨.ret, rfl, eq_of_selects_FFFF h, rfl⟩
  | 2, _, rfl, h => ⟨.jp (nnnField op), rfl, encodeNNN_of_selects h (by decide) (by decide), rfl⟩
  | 3, _, rfl, h => ⟨.call (nnnField op), rfl, encodeNNN_of_selects h (by decide) (by decide), rfl⟩
  | 4, _, rfl, h =>
    ⟨.seImm (xField op) (kkField op), rfl, encodeXKK_of_selects h (by decide) (by decide), rfl⟩
  | 5, _, rfl, h =>
    ⟨.sneImm (xField op) (kkField op), rfl, encodeXKK_of_selects h (by decide) (by decide), rfl⟩
  | 6, _, rfl, h => ⟨.seReg (xField op) (yField op), rfl, encodeXY_of_selects h (by decide), rfl⟩
  | 7, _, rfl, h =>
    ⟨.ldImm (xField op) (kkField op), rfl, encodeXKK_of_selects h (by decide) (by decide), rfl⟩
  | 8, _, rfl, h =>
    ⟨.addImm (xField op) (kkField op), rfl, encodeXKK_of_selects h (by decide) (by decide), rfl⟩
  | 9, _, rfl, h => ⟨.ldReg (xField op) (yField op), rfl, encodeXY_of_selects h (by decide), rfl⟩
  | 10, _, rfl, h => ⟨.orReg (xField op) (yField op), rfl, encodeXY_of_selects h (by decide), rfl⟩
  | 11, _, rfl, h => ⟨.andReg (xField op) (yField op), rfl, encodeXY_of_selects h (by decide), rfl⟩
  | 12, _, rfl, h => ⟨.xorReg (xField op) (yField op), rfl, encodeXY_of_selects h (by decide), rfl⟩
  | 13, _, rfl, h => ⟨.addReg (xField op) (yField op), rfl, encodeXY_of_selects h (by decide), rfl⟩
  | 14, _, rfl, h => ⟨.subReg (xField op) (yField op), rfl, encodeXY_of_selects h (by decide), rfl⟩
  | 15, _, rfl, h => ⟨.shr (xField op) (yField op), rfl, encodeXY_of_selects h (by decide), rfl⟩
  | 16, _, rfl, h => ⟨.subnReg (xField op) (yField op), rfl, encodeXY_of_selects h (by decide), rfl⟩
  | 17, _, rfl, h => ⟨.shl (xField op) (yField op), rfl, encodeXY_of_selects h (by decide), rfl⟩
  | 18, _, rfl, h => ⟨.sneReg (xField op) (yField op), rfl, encodeXY_of_selects h (by decide), rfl⟩
  | 19, _, rfl, h => ⟨.ldI (nnnField op), rfl, encodeNNN_of_selects h (by decide) (by decide), rfl⟩
  | 20, _, rfl, h => ⟨.jpV0 (nnnField op), rfl, encodeNNN_of_selects h (by decide) (by decide), rfl⟩
  | 21, _, rfl, h =>
    ⟨.rnd (xField op) (kkField op), rfl, encodeXKK_of_selects h (by decide) (by decide), rfl⟩
  | 22, _, rfl, h => ⟨.drw (xField op) (yField op) (nField op).toNat, wellFormed_drw ..,
      encodeXYN_of_selects h (by decide) (by decide), rfl⟩
  | 23, _, rfl, h => ⟨.skp (xField op), rfl, encodeXF_of_selects h (by decide), rfl⟩
  | 24, _, rfl, h => ⟨.sknp (xField op), rfl, encodeXF_of_selects h (by decide), rfl⟩
  | 25, _, rfl, h => ⟨.ldVxDt (xField op), rfl, encodeXF_of_selects h (by decide), rfl⟩
  | 26, _, rfl, h => ⟨.ldVxK (xField op), rfl, encodeXF_of_selects h (by decide), rfl⟩
  | 27, _, rfl, h => ⟨.ldDtVx (xField op), rfl, encodeXF_of_selects h (by decide), rfl⟩
  | 28, _, rfl, h => ⟨.ldStVx (xField op), rfl, encodeXF_of_selects h (by decide), rfl⟩
  | 29, _, rfl, h => ⟨.addI (xField op), rfl, encodeXF_of_selects h (by decide), rfl⟩
  | 30, _, rfl, h => ⟨.ldF (xField op), rfl, encodeXF_of_selects h (by decide), rfl⟩
  | 31, _, rfl, h => ⟨.ldB (xField op), rfl, encodeXF_of_selects h (by decide), rfl⟩
  | 32, _, rfl, h => ⟨.storeRegs (xField op), rfl, encodeXF_of_selects h (by decide), rfl⟩
  | 33, _, rfl, h => ⟨.loadRegs (xField op), rfl, encodeXF_of_selects h (by decide), rfl⟩
  | k + 34, r, hr, _ => by
    rw [List.getElem?_eq_none (show opcodeRows.length ≤ k + 34 from Nat.le_add_left 34 k)] at hr
    cases hr

open Laws in
/-- Every well-formed instruction's word is selected by the instruction's own row. -/
theorem row_selects_encode (i : Instr) : WordFitsRow.Statement i := by
  cases i with
  | cls => exact WordFitsRow.cls
  | ret => exact WordFitsRow.ret
  | jp nnn => exact WordFitsRow.jp nnn
  | call nnn => exact WordFitsRow.call nnn
  | seImm x kk => exact WordFitsRow.seImm x kk
  | sneImm x kk => exact WordFitsRow.sneImm x kk
  | seReg x y => exact WordFitsRow.seReg x y
  | ldImm x kk => exact WordFitsRow.ldImm x kk
  | addImm x kk => exact WordFitsRow.addImm x kk
  | ldReg x y => exact WordFitsRow.ldReg x y
  | orReg x y => exact WordFitsRow.orReg x y
  | andReg x y => exact WordFitsRow.andReg x y
  | xorReg x y => exact WordFitsRow.xorReg x y
  | addReg x y => exact WordFitsRow.addReg x y
  | subReg x y => exact WordFitsRow.subReg x y
  | shr x y => exact WordFitsRow.shr x y
  | subnReg x y => exact WordFitsRow.subnReg x y
  | shl x y => exact WordFitsRow.shl x y
  | sneReg x y => exact WordFitsRow.sneReg x y
  | ldI nnn => exact WordFitsRow.ldI nnn
  | jpV0 nnn => exact WordFitsRow.jpV0 nnn
  | rnd x kk => exact WordFitsRow.rnd x kk
  | drw x y n => exact WordFitsRow.drw x y n
  | skp x => exact WordFitsRow.skp x
  | sknp x => exact WordFitsRow.sknp x
  | ldVxDt x => exact WordFitsRow.ldVxDt x
  | ldVxK x => exact WordFitsRow.ldVxK x
  | ldDtVx x => exact WordFitsRow.ldDtVx x
  | ldStVx x => exact WordFitsRow.ldStVx x
  | addI x => exact WordFitsRow.addI x
  | ldF x => exact WordFitsRow.ldF x
  | ldB x => exact WordFitsRow.ldB x
  | storeRegs x => exact WordFitsRow.storeRegs x
  | loadRegs x => exact WordFitsRow.loadRegs x

/-- Settles O3: a selected word is the word of an instruction of the row, which it decodes to; and a word that
decodes is the word of what it decodes to, which the row of that form selects. -/
theorem wordSelectsFormExactlyWhenItsRowMatches : Obligations.WordSelectsFormExactlyWhenItsRowMatches := by
  intro op k r hr
  constructor
  · intro hsel
    obtain ⟨i, hwf, rfl, hk⟩ := exists_encode_of_selects k r hr hsel
    exact ⟨i, decodeWord_encode hwf, hk⟩
  · rintro ⟨i, hd, rfl⟩
    obtain ⟨hwf, rfl⟩ := encodeOfDecodeIsIdentity op i hd
    obtain ⟨r', hr', hsel⟩ := row_selects_encode i hwf
    rw [hr] at hr'
    cases hr'
    exact hsel

/-! ## The illegal words (R76, R77) -/

section
variable (op : Word)

theorem majorField_toNat : (majorField op).toNat = op.toNat / 0x1000 := by
  simp only [majorField, BitVec.extractLsb'_toNat]
  omega

theorem nnnField_toNat : (nnnField op).toNat = op.toNat % 0x1000 := by
  simp [nnnField, BitVec.extractLsb'_toNat]

theorem kkField_toNat : (kkField op).toNat = op.toNat % 0x100 := by
  simp [kkField, BitVec.extractLsb'_toNat]

theorem nField_toNat : (nField op).toNat = op.toNat % 0x10 := by
  simp [nField, BitVec.extractLsb'_toNat]

theorem decodeMajor0_eq_none : decodeMajor0 op = none ↔
    op.toNat % 0x1000 ≠ 0x0E0 ∧ op.toNat % 0x1000 ≠ 0x0EE := by
  rw [← nnnField_toNat]
  unfold decodeMajor0
  split
  case h_1 h => simp [h]
  case h_2 h => simp [h]
  case h_3 h h' => simp_all [← BitVec.toNat_inj]

theorem decodeMajor8_eq_none : decodeMajor8 op = none ↔
    op.toNat % 0x10 ∈ [0x8, 0x9, 0xA, 0xB, 0xC, 0xD, 0xF] := by
  rw [← nField_toNat]
  unfold decodeMajor8
  split
  case h_10 =>
    have hlt := (nField op).isLt
    simp_all [← BitVec.toNat_inj]
    omega
  all_goals simp [*]

theorem decodeMajorE_eq_none : decodeMajorE op = none ↔ op.toNat % 0x100 ∉ [0x9E, 0xA1] := by
  rw [← kkField_toNat]
  unfold decodeMajorE
  split
  case h_3 => simp_all [← BitVec.toNat_inj]
  all_goals simp [*]

theorem decodeMajorF_eq_none : decodeMajorF op = none ↔
    op.toNat % 0x100 ∉ [0x07, 0x0A, 0x15, 0x18, 0x1E, 0x29, 0x33, 0x55, 0x65] := by
  rw [← kkField_toNat]
  unfold decodeMajorF
  split
  case h_10 => simp_all [← BitVec.toNat_inj]
  all_goals simp [*]

end

/-- Settles O4: the majors that have a form for every word give one, and each other major has its own list. -/
theorem illegalWordsAreExactlyTheListedOnes : Obligations.IllegalWordsAreExactlyTheListedOnes := by
  intro op
  have hmajor := majorField_toNat op
  unfold decodeWord
  split
  case h_1 h =>
    have h0 : op.toNat / 0x1000 = 0 := by simpa [h] using hmajor.symm
    have e : op.toNat % 0x1000 = op.toNat := by omega
    simp [decodeMajor0_eq_none, h0, e]
  case h_6 h =>
    have h5 : op.toNat / 0x1000 = 5 := by simpa [h] using hmajor.symm
    simp [h5, ← BitVec.toNat_inj, nField_toNat]
  case h_9 h =>
    have h8 : op.toNat / 0x1000 = 8 := by simpa [h] using hmajor.symm
    simp [decodeMajor8_eq_none, h8]
  case h_10 h =>
    have h9 : op.toNat / 0x1000 = 9 := by simpa [h] using hmajor.symm
    simp [h9, ← BitVec.toNat_inj, nField_toNat]
  case h_15 h =>
    have hE : op.toNat / 0x1000 = 0xE := by simpa [h] using hmajor.symm
    simp [decodeMajorE_eq_none, hE]
  case h_16 h =>
    have hF : op.toNat / 0x1000 = 0xF := by simpa [h] using hmajor.symm
    simp [decodeMajorF_eq_none, hF]
  case h_17 =>
    have hlt := (majorField op).isLt
    simp_all [← BitVec.toNat_inj]
    omega
  all_goals
    next h =>
    simp [← hmajor, h]

/-- Settles O5: the decoder runs on each of the words. -/
theorem sampleWordsDecodeToTheirForms : Obligations.SampleWordsDecodeToTheirForms := by
  unfold Obligations.SampleWordsDecodeToTheirForms
  decide

end Sys2Proof
end

section
/-! PROOFS. The control transfer family (41_flow.md): return and call, their faults, and the two together
(R111, R113). -/

namespace Sys2Proof.Machine

section
variable {s : State}

theorem execRet_of_getLast? {top : Word} (h : s.stack.getLast? = some top) :
    execRet s = .next ((s.setStack s.stack.dropLast).setPc top) := by
  simp [execRet, h]

theorem execRet_of_nil (h : s.stack = []) : execRet s = .next (s.setFault (some .stackUnderflow)) := by
  simp [execRet, h, raise]

theorem execCall_of_room (nnn : Addr) (h : s.stackFull = false) :
    execCall nnn s = .next ((s.setStack (s.stack ++ [s.pc])).setPc (nnn.setWidth 16)) := by
  simp [execCall, h]

theorem execCall_of_full (nnn : Addr) (h : s.stackFull = true) :
    execCall nnn s = .next (s.setFault (some .stackOverflow)) := by
  simp [execCall, h, raise]

/-- The stack is full exactly when its depth is finite and reached (R113, D17). -/
theorem State.stackFull_iff :
    s.stackFull = true ↔ ∃ d, s.params.stackDepth = some d ∧ d ≤ s.stack.length := by
  unfold State.stackFull
  cases s.params.stackDepth <;> simp

theorem State.stackFull_eq_false (h : ∀ d, s.params.stackDepth = some d → s.stack.length < d) :
    s.stackFull = false := by
  rw [← Bool.not_eq_true, State.stackFull_iff]
  rintro ⟨d, hd, hle⟩
  exact Nat.not_lt.2 hle (h d hd)

/-- A return takes the top of the stack into `PC` and leaves what is below it. -/
theorem execRet_of_append {below : List Word} {top : Word} (h : s.stack = below ++ [top]) :
    execRet s = .next ((s.setStack below).setPc top) := by
  rw [execRet_of_getLast? (by rw [h, List.getLast?_concat]), h, List.dropLast_concat]

end

/-- Settles O21: a stack with a top entry is popped, an empty one latches the fault. -/
theorem returnPopsTheTopOrLatchesUnderflow : Obligations.ReturnPopsTheTopOrLatchesUnderflow := by
  refine ⟨fun s below top h => ?_, fun s h => ?_⟩
  · refine ⟨_, execRet_of_append h, rfl, rfl, ?_⟩
    exact State.unchangedBut_mono (by simp)
      (State.frame_two (s.frame_setStack below) (State.frame_setPc _ top))
  · exact ⟨_, execRet_of_nil h, rfl, s.frame_setFault _⟩

/-- Settles O23: the two cases are `stackFull`. -/
theorem callPushesTheReturnAddressOrLatchesOverflow :
    Obligations.CallPushesTheReturnAddressOrLatchesOverflow := by
  refine ⟨fun nnn s h => ?_, fun nnn s d hd hle => ?_⟩
  · refine ⟨_, execCall_of_room nnn (State.stackFull_eq_false h), Addr.setWidth_word_toNat nnn, rfl, ?_⟩
    exact State.unchangedBut_mono (by simp) (State.frame_two (s.frame_setStack _) (State.frame_setPc _ _))
  · exact ⟨_, execCall_of_full nnn (State.stackFull_iff.2 ⟨d, hd, hle⟩), rfl, s.frame_setFault _⟩

/-- Settles O24: the call leaves the caller's stack with the return address on top, and the return pops that. -/
theorem returnUndoesCall : Obligations.ReturnUndoesCall := by
  intro nnn s t u w hroom hcall hstack hret
  cases (execCall_of_room nnn (State.stackFull_eq_false hroom)).symm.trans hcall
  cases (execRet_of_append hstack).symm.trans hret
  exact ⟨rfl, rfl⟩

end Sys2Proof.Machine
end

section
/-! PROOFS. The rest of the arithmetic family (42_alu.md): differences and their not-borrow, the shifts, the random
byte (R137 to R141). And Fx1E (43_index_memory.md R161). -/

namespace Sys2Proof.Machine

/-- R137, R139: the difference, plus 256 where it would be negative. -/
theorem diffByte_toNat (a b : Byte) :
    (diffByte a b).toNat = if b.toNat ≤ a.toNat then a.toNat - b.toNat else a.toNat + 256 - b.toNat := by
  have ha : a.toNat < 256 := a.isLt
  have hb : b.toNat < 256 := b.isLt
  rw [diffByte, BitVec.toNat_ofNat]
  split <;> omega

theorem notBorrowFlag_eq (a b : Byte) : notBorrowFlag a b = if b.toNat ≤ a.toNat then 0x01 else 0x00 := by
  simp [notBorrowFlag, flagByte]

/-- A form that writes a difference and its not-borrow: what `V[x]` and `VF` hold, and its frames. -/
theorem exec_writes_difference {i : Instr} {s : State} {x : RegIx} {a b : Byte}
    (h : exec i s = .next (s.flagThenResult x (notBorrowFlag a b) (diffByte a b))) :
    ∃ t, exec i s = .next t ∧
      (t.readV x).toNat = (if b.toNat ≤ a.toNat then a.toNat - b.toNat else a.toNat + 256 - b.toNat) ∧
      (x ≠ VF → t.readV VF = if b.toNat ≤ a.toNat then 0x01 else 0x00) ∧
      s.regsUnchangedBut t [x, VF] ∧ s.unchangedBut t [.regs] := by
  obtain ⟨t, hexec, hx, hflag, hregs, hframe⟩ := exec_writes_flag_then_result h
  exact ⟨t, hexec, hx ▸ diffByte_toNat a b, fun hne => (hflag hne).trans (notBorrowFlag_eq a b), hregs,
    hframe⟩

/-- Settles O32: both operands are read before the flag is written. -/
theorem subtractWritesTheDifferenceAndNotBorrow : Obligations.SubtractWritesTheDifferenceAndNotBorrow :=
  fun _ _ _ => exec_writes_difference rfl

/-- Settles O33: as for 8xy5, with the operands exchanged. -/
theorem reverseSubtractWritesTheDifferenceAndNotBorrow :
    Obligations.ReverseSubtractWritesTheDifferenceAndNotBorrow :=
  fun _ _ _ => exec_writes_difference rfl

/-! ## Shifts (R138, R140) -/

section
variable (a : Byte)

theorem shiftRightByte_toNat : (shiftRightByte a).toNat = a.toNat / 2 := by
  simp [shiftRightByte, Nat.shiftRight_eq_div_pow]

theorem lowBitFlag_toNat : (lowBitFlag a).toNat = a.toNat % 2 := by
  simp [lowBitFlag, Nat.and_one_is_mod]

theorem shiftLeftByte_toNat : (shiftLeftByte a).toNat = 2 * a.toNat % 256 := by
  simp [shiftLeftByte, Nat.shiftLeft_eq, Nat.mul_comm]

theorem highBitFlag_toNat : (highBitFlag a).toNat = a.toNat / 128 := by
  simp [highBitFlag, Nat.shiftRight_eq_div_pow]

end

/-- Settles O34: the source is chosen by the strap before either write. -/
theorem shiftsFollowTheQuirkStrap : Obligations.ShiftsFollowTheQuirkStrap := by
  intro x y s a ha
  have hsource : s.shiftSource x y = a := ha.symm
  constructor
  · obtain ⟨t, hexec, hx, hflag, hregs, hframe⟩ := exec_writes_flag_then_result (i := .shr x y)
      (s := s) (x := x) (flag := lowBitFlag a) (result := shiftRightByte a) (hsource ▸ rfl)
    exact ⟨t, hexec, hx ▸ shiftRightByte_toNat a, fun hne => hflag hne ▸ lowBitFlag_toNat a, hregs,
      hframe⟩
  · obtain ⟨t, hexec, hx, hflag, hregs, hframe⟩ := exec_writes_flag_then_result (i := .shl x y)
      (s := s) (x := x) (flag := highBitFlag a) (result := shiftLeftByte a) (hsource ▸ rfl)
    exact ⟨t, hexec, hx ▸ shiftLeftByte_toNat a, fun hne => hflag hne ▸ highBitFlag_toNat a, hregs,
      hframe⟩

/-- Settles O35: the masked byte is the one byte written, and a mask clears what its complement keeps. -/
theorem randomByteIsMasked : Obligations.RandomByteIsMasked := by
  intro x kk s
  obtain ⟨t, hexec, hx, hregs, hframe⟩ :=
    exec_writes_register (i := .rnd x kk) (s := s) (x := x) (b := s.rnd &&& kk) rfl
  have hmask : s.rnd &&& kk &&& ~~~kk = 0x00 := by simp [BitVec.and_assoc]
  exact ⟨t, hexec, hx, hx ▸ hmask, hregs, hframe⟩

/-- Settles O37: the reduced sum is the one word written, to `I`. -/
theorem addToIndexWrapsAt16Bits : Obligations.AddToIndexWrapsAt16Bits := by
  intro x s
  obtain ⟨t, hexec, hi, hframe⟩ := exec_writes_index (i := .addI x) (s := s)
    (w := BitVec.ofNat 16 (s.i.toNat + (s.readV x).toNat)) rfl
  exact ⟨t, hexec, hi ▸ BitVec.toNat_ofNat _ _, hframe⟩

end Sys2Proof.Machine
end

section
/-! PROOFS. The keys family (45_keys_timers.md): the key lookup under each policy, the skips by key level, and the
begin of a wait (R190, R191, R193, R196). -/

namespace Sys2Proof.Machine

section
variable {s : State} {x : RegIx}

theorem execSkp_of_some {held : Bool} (h : s.held x = some held) : execSkp x s = .next (s.skipIf held) := by
  simp [execSkp, h]

theorem execSkp_of_none (h : s.held x = none) :
    execSkp x s = .next (s.setFault (some (.keyIndexOutOfRange (s.readV x)))) := by
  simp [execSkp, h, raise]

theorem execSknp_of_some {held : Bool} (h : s.held x = some held) :
    execSknp x s = .next (s.skipIf (!held)) := by
  simp [execSknp, h]

theorem execSknp_of_none (h : s.held x = none) :
    execSknp x s = .next (s.setFault (some (.keyIndexOutOfRange (s.readV x)))) := by
  simp [execSknp, h, raise]

/-! ## The key lookup (R196) -/

theorem keyLevel_eq {keys : KeyLevels} {v : Nat} {k : Fin 16} (h : v % 16 = k.val) :
    keyLevel keys v = keys[k] := by
  simp [keyLevel, h]

theorem State.held_of_lt {k : Fin 16} (h : (s.readV x).toNat = k.val) : s.held x = some s.keys[k] := by
  have hlt : (s.readV x).toNat < 16 := h ▸ k.isLt
  have hmod : (s.readV x).toNat % 16 = k.val := (Nat.mod_eq_of_lt hlt).trans h
  simp [State.held, heldKey, hlt, keyLevel_eq hmod]

theorem State.held_notPressed (h : 16 ≤ (s.readV x).toNat) (hp : s.params.keyOor = .notPressed) :
    s.held x = some false := by
  simp [State.held, heldKey, Nat.not_lt.2 h, hp]

theorem State.held_mask4 (h : 16 ≤ (s.readV x).toNat) (hp : s.params.keyOor = .mask4) {k : Fin 16}
    (hk : (s.readV x).toNat % 16 = k.val) : s.held x = some s.keys[k] := by
  simp [State.held, heldKey, Nat.not_lt.2 h, hp, keyLevel_eq hk]

theorem State.held_fault (h : 16 ≤ (s.readV x).toNat) (hp : s.params.keyOor = .fault) : s.held x = none := by
  simp [State.held, heldKey, Nat.not_lt.2 h, hp]

/-! ## The two skips, by what the lookup gives -/

theorem exec_skp_of_some {b : Bool} (h : s.held x = some b) :
    ∃ t, exec (.skp x) s = .next t ∧ t.pc = (if b = true then s.pc + 2 else s.pc) ∧
      s.unchangedBut t [.pc] :=
  ⟨_, execSkp_of_some h, s.skipIf_pc b, s.frame_skipIf b⟩

theorem exec_sknp_of_some {b : Bool} (h : s.held x = some b) :
    ∃ t, exec (.sknp x) s = .next t ∧ t.pc = (if b = true then s.pc else s.pc + 2) ∧
      s.unchangedBut t [.pc] := by
  refine ⟨_, execSknp_of_some h, ?_, s.frame_skipIf _⟩
  cases b <;> rfl

end

/-- Settles O47: the lookup gives the level of the numbered key. -/
theorem keySkipsFollowTheKeyLevel : Obligations.KeySkipsFollowTheKeyLevel :=
  fun _ _ _ h => ⟨exec_skp_of_some (State.held_of_lt h), exec_sknp_of_some (State.held_of_lt h)⟩

/-- Settles O48: the lookup has one answer under each policy. -/
theorem keyNumbersAbove15FollowThePolicy : Obligations.KeyNumbersAbove15FollowThePolicy := by
  intro x s h
  refine ⟨fun hp => ⟨?_, ?_⟩, fun hp k hk => ?_, fun hp => ?_⟩
  · exact ⟨s, execSkp_of_some (State.held_notPressed h hp), rfl, fun p _ => s.samePart_refl p⟩
  · exact exec_sknp_of_some (State.held_notPressed h hp)
  · exact ⟨exec_skp_of_some (State.held_mask4 h hp hk), exec_sknp_of_some (State.held_mask4 h hp hk)⟩
  · have hheld := State.held_fault h hp
    exact ⟨⟨_, execSkp_of_none hheld, rfl, s.frame_setFault _⟩,
      ⟨_, execSknp_of_none hheld, rfl, s.frame_setFault _⟩⟩

/-- Settles O50: the wait is the one part written, and the output follows it. -/
theorem keyWaitBeginsAndKeepsTheRegister : Obligations.KeyWaitBeginsAndKeepsTheRegister :=
  fun x s => ⟨s.setWait (some x), rfl, rfl, rfl, s.frame_setWait _⟩

end Sys2Proof.Machine
end

section
/-! PROOFS. The step procedure (40_step.md): what a gated step, a failing fetch, an illegal word and a
legal one do, and that every operation is answered. -/

namespace Sys2Proof.Machine

/-! ## Steps that do and do not execute -/

section
variable {s : State} {keys : KeyLevels} {rnd : Byte} {rest : List HostOp}

/-- A step that is not gated fetches on the sampled state. -/
theorem step_running (hop : s.nextIsStep keys rnd rest) (hfault : s.fault = none) (hwait : s.wait = none) :
    step s = runInstr (s.sampled keys rnd rest) := by
  rw [step_of_nextIsStep hop]
  exact coreStep_running (s := s.setHost rest) keys rnd (State.gated_eq_false.2 ⟨hfault, hwait⟩)

theorem not_lastFetch_lt (hpc : s.pc.toNat ≤ 0xFFE) : ¬ lastFetch < s.pc.toNat := Nat.not_lt.2 hpc

theorem State.frame_sampled (s : State) (keys : KeyLevels) (rnd : Byte) (rest : List HostOp) :
    s.unchangedBut (s.sampled keys rnd rest) [.host, .inputs] :=
  State.frame_two (s.frame_setHost rest) (State.frame_setInputs _ keys rnd)

/-- Two bytes decode as the word they make up. -/
theorem decode_pair_ok {hi lo : Byte} {i : Instr} :
    decode [hi, lo] = .ok (i, []) ↔ decodeWord (wordOfBytes hi lo) = some i := by
  cases h : decodeWord (wordOfBytes hi lo) <;> simp [decode, h]

theorem decode_pair_error {hi lo : Byte} {op : Word} :
    decode [hi, lo] = .error (.unknownOpcode op) ↔
      decodeWord (wordOfBytes hi lo) = none ∧ wordOfBytes hi lo = op := by
  cases h : decodeWord (wordOfBytes hi lo) <;> simp [decode, h]

end

/-- Settles O7: with the gate open and the fetch in range, `runInstr` decodes and executes. -/
theorem stepRunsTheDecodedInstruction : Obligations.StepRunsTheDecodedInstruction := by
  intro s keys rnd rest i hop hfault hwait hpc hd
  rw [step_running hop hfault hwait]
  exact runInstr_exec (s := s.sampled keys rnd rest) (not_lastFetch_lt hpc) (decode_pair_ok.1 hd)

/-- A closed gate is a latched fault or a wait (R90). -/
theorem State.gated_of_ne {s : State} (h : s.fault ≠ none ∨ s.wait ≠ none) : s.gated = true := by
  rw [← Bool.not_eq_false, State.gated_eq_false]
  rintro ⟨hf, hw⟩
  exact h.elim (· hf) (· hw)

/-- Settles O8: the gate is tested before anything else, and the outcome reads the latch first. -/
theorem gatedStepChangesNothing : Obligations.GatedStepChangesNothing := by
  intro s keys rnd rest hop hgate
  refine ⟨?_, fun f hf => ?_, fun hf => ?_⟩
  · rw [step_of_nextIsStep hop]
    exact coreStep_gated (s := s.setHost rest) keys rnd (State.gated_of_ne hgate)
  · simp [stepOutcome, hf]
  · have hwait : s.wait.isSome := Option.isSome_iff_ne_none.2 (hgate.resolve_left (not_not.2 hf))
    simp [stepOutcome, hf, hwait]

/-- Settles O9: the fetch fails before `PC` is advanced. -/
theorem fetchOutOfRangeIsLatched : Obligations.FetchOutOfRangeIsLatched := by
  intro s keys rnd rest hop hfault hwait hpc
  refine ⟨_, (step_running hop hfault hwait).trans (runInstr_outOfRange (s := s.sampled keys rnd rest) hpc),
    rfl, rfl, rfl, ?_⟩
  exact State.unchangedBut_mono (by simp)
    (State.frame_two (s.frame_sampled keys rnd rest) (State.frame_setFault _ _))

/-- Settles O10: the decoder fails after `PC` is advanced. -/
theorem unknownOpcodeIsLatched : Obligations.UnknownOpcodeIsLatched := by
  intro s keys rnd rest op hop hfault hwait hpc hd
  obtain ⟨hnone, rfl⟩ := decode_pair_error.1 hd
  refine ⟨_, (step_running hop hfault hwait).trans
    (runInstr_illegal (s := s.sampled keys rnd rest) (not_lastFetch_lt hpc) hnone), rfl, rfl, rfl, rfl, ?_⟩
  exact State.unchangedBut_mono (by simp)
    (State.frame_two (State.frame_two (s.frame_sampled keys rnd rest) (State.frame_advance _))
      (State.frame_setFault _ _))

/-! ## Every operation is answered -/

theorem runInstr_next (s : State) : ∃ t, runInstr s = .next t := by
  by_cases hpc : lastFetch < s.pc.toNat
  · exact ⟨_, runInstr_outOfRange hpc⟩
  · cases hd : decodeWord s.fetchWord with
    | none => exact ⟨_, runInstr_illegal hpc hd⟩
    | some i =>
      obtain ⟨t, ht, -⟩ := exec_next i s.advance
      exact ⟨t, (runInstr_exec hpc hd).trans ht⟩

theorem coreStep_next (keys : KeyLevels) (rnd : Byte) (s : State) : ∃ t, coreStep keys rnd s = .next t := by
  cases hg : s.gated
  · rw [coreStep_running keys rnd hg]
    exact runInstr_next _
  · exact ⟨s, coreStep_gated keys rnd hg⟩

theorem step_of_host_cons {s : State} {op : HostOp} {rest : List HostOp} (h : s.host = op :: rest) :
    step s = perform op (s.setHost rest) := by
  simp [step, performNext, h]

theorem deliverKey_refused {k : Nat} (s : State) (hk : 16 ≤ k) :
    deliverKey k s = .refused (.keyNumberOutOfRange k) := by
  rw [deliverKey, if_neg (Nat.not_lt.2 hk)]

theorem deliverKey_waiting {s : State} {k : Nat} {x : RegIx} (hk : k < 16) (hw : s.wait = some x) :
    deliverKey k s = .next ((s.setV x (BitVec.ofNat 8 k)).setWait none) := by
  rw [deliverKey, if_pos hk, hw]

theorem deliverKey_idle {s : State} {k : Nat} (hk : k < 16) (hw : s.wait = none) :
    deliverKey k s = .next s := by
  rw [deliverKey, if_pos hk, hw]

theorem deliverKey_next {s : State} {k : Nat} (hk : k < 16) : ∃ t, deliverKey k s = .next t := by
  cases hw : s.wait with
  | none => exact ⟨_, deliverKey_idle hk hw⟩
  | some x => exact ⟨_, deliverKey_waiting hk hw⟩

/-- An operation is answered unless it is a key number out of range (R217). -/
theorem perform_next (op : HostOp) (s : State) (hkey : ∀ k, op = .deliverKey k → k < 16) :
    ∃ t, perform op s = .next t := by
  cases op with
  | step keys rnd => exact coreStep_next keys rnd s
  | tick => exact ⟨_, rfl⟩
  | deliverKey k => exact deliverKey_next (hkey k rfl)
  | loadProgram bytes => exact ⟨_, rfl⟩
  | reset => exact ⟨_, rfl⟩

theorem step_next {s : State} (hkey : ∀ k rest, s.host = .deliverKey k :: rest → k < 16) :
    ∃ t, step s = .next t := by
  cases hhost : s.host with
  | nil =>
    rw [step_of_nextIsStep (Or.inr ⟨hhost, rfl, rfl, rfl⟩)]
    exact coreStep_next _ _ _
  | cons op rest =>
    rw [step_of_host_cons hhost]
    exact perform_next op _ (fun k hop => hkey k rest (hop ▸ hhost))

/-- Settles O12: a key number out of range is the one refusal, and every other operation is answered. -/
theorem onlyAnOutOfRangeKeyIsRefused : Obligations.OnlyAnOutOfRangeKeyIsRefused := by
  intro s
  by_cases hkey : ∀ k rest, s.host = .deliverKey k :: rest → k < 16
  · exact .inr ⟨hkey, step_next hkey⟩
  · push Not at hkey
    obtain ⟨k, rest, hhost, hk⟩ := hkey
    exact .inl ⟨k, rest, hhost, hk, (step_of_host_cons hhost).trans (deliverKey_refused _ hk)⟩

end Sys2Proof.Machine
end

section
/-! PROOFS. The invariant of the machine: which updates keep it, that the execute phase keeps it, and that every
host operation does. -/

namespace Sys2Proof.Machine

/-! ## Updates that keep the invariant -/

section
variable {s t : State}

/-- The invariant speaks of six parts of the state only. -/
theorem State.Inv.congr (h : s.Inv) (hmem : t.mem = s.mem) (hpc : t.pc = s.pc) (hstack : t.stack = s.stack)
    (hfault : t.fault = s.fault) (hwait : t.wait = s.wait) (hparams : t.params = s.params) : t.Inv where
  memCanonical := by rw [hmem]; exact h.memCanonical
  pcBound := by rw [hpc]; exact h.pcBound
  stackBound := by rw [hstack]; exact h.stackBound
  oneGate := by rw [hfault, hwait]; exact h.oneGate
  depthBound := by rw [hparams, hstack]; exact h.depthBound
  loadFaultNotLatched := by rw [hfault]; exact h.loadFaultNotLatched
  overflowOnlyIfFinite := by rw [hfault, hparams]; exact h.overflowOnlyIfFinite
  keyFaultOnlyIfPolicy := by rw [hfault, hparams]; exact h.keyFaultOnlyIfPolicy

theorem State.Inv.setV (h : s.Inv) (r : RegIx) (b : Byte) : (s.setV r b).Inv := h.congr rfl rfl rfl rfl rfl rfl
theorem State.Inv.setRegs (h : s.Inv) (v : Vector Byte 16) : (s.setRegs v).Inv :=
  h.congr rfl rfl rfl rfl rfl rfl
theorem State.Inv.setI (h : s.Inv) (w : Word) : (s.setI w).Inv := h.congr rfl rfl rfl rfl rfl rfl
theorem State.Inv.setDt (h : s.Inv) (b : Byte) : (s.setDt b).Inv := h.congr rfl rfl rfl rfl rfl rfl
theorem State.Inv.setSt (h : s.Inv) (b : Byte) : (s.setSt b).Inv := h.congr rfl rfl rfl rfl rfl rfl
theorem State.Inv.setFb (h : s.Inv) (f : FrameBuffer) : (s.setFb f).Inv := h.congr rfl rfl rfl rfl rfl rfl
theorem State.Inv.emit (h : s.Inv) (e : Event) : (s.emit e).Inv := h.congr rfl rfl rfl rfl rfl rfl
theorem State.Inv.setHost (h : s.Inv) (l : List HostOp) : (s.setHost l).Inv := h.congr rfl rfl rfl rfl rfl rfl
theorem State.Inv.sampled (h : s.Inv) (keys : KeyLevels) (rnd : Byte) (rest : List HostOp) :
    (s.sampled keys rnd rest).Inv := h.congr rfl rfl rfl rfl rfl rfl
theorem State.Inv.resultThenFlag (h : s.Inv) (x : RegIx) (a b : Byte) : (s.resultThenFlag x a b).Inv :=
  (h.setV x a).setV VF b
theorem State.Inv.flagThenResult (h : s.Inv) (x : RegIx) (a b : Byte) : (s.flagThenResult x a b).Inv :=
  (h.setV VF a).setV x b

theorem State.Inv.setMem (h : s.Inv) {m : Memory} (hm : m.wf = true) : (s.setMem m).Inv :=
  { h with memCanonical := hm }

theorem State.Inv.setPc (h : s.Inv) {w : Word} (hw : w.toNat ≤ 0x10FE) : (s.setPc w).Inv :=
  { h with pcBound := hw }

theorem State.Inv.setStack (h : s.Inv) {k : List Word} (hk : ∀ a ∈ k, a.toNat ≤ 0x1000)
    (hd : ∀ d, s.params.stackDepth = some d → k.length ≤ d) : (s.setStack k).Inv :=
  { h with stackBound := hk, depthBound := hd }

/-- A wait may begin only without a fault (R90), and it may always end. -/
theorem State.Inv.setWait (h : s.Inv) {w : Option RegIx} (hw : s.fault = none ∨ w = none) :
    (s.setWait w).Inv :=
  { h with oneGate := hw }

/-- When a step may latch a fault under the parameters `p` (R210, R214). -/
structure Fault.Latchable (f : Fault) (p : Params) : Prop where
  notLoad : f ≠ .outOfBoundsLoad
  overflow : f = .stackOverflow → p.stackDepth ≠ none
  key : ∀ v, f = .keyIndexOutOfRange v → p.keyOor = .fault ∧ 16 ≤ v.toNat

theorem State.Inv.raise (h : s.Inv) (hwait : s.wait = none) {f : Fault} (hf : f.Latchable s.params) :
    (s.setFault (some f)).Inv :=
  { h with
    oneGate := .inr hwait
    loadFaultNotLatched := fun e => hf.notLoad (Option.some.inj e)
    overflowOnlyIfFinite := fun e => hf.overflow (Option.some.inj e)
    keyFaultOnlyIfPolicy := fun v e => hf.key v (Option.some.inj e) }

end

/-! ## Which faults a step may latch -/

theorem latchable_unknownOpcode (op : Word) (p : Params) : (Fault.unknownOpcode op).Latchable p :=
  ⟨nofun, nofun, nofun⟩

theorem latchable_fetchOutOfRange (pc : Word) (p : Params) : (Fault.fetchOutOfRange pc).Latchable p :=
  ⟨nofun, nofun, nofun⟩

theorem latchable_stackUnderflow (p : Params) : Fault.stackUnderflow.Latchable p :=
  ⟨nofun, nofun, nofun⟩

/-- A full stack has a finite depth (R113). -/
theorem latchable_stackOverflow {s : State} (h : s.stackFull = true) :
    Fault.stackOverflow.Latchable s.params := by
  refine ⟨nofun, fun _ hd => ?_, nofun⟩
  rw [State.stackFull, hd] at h
  cases h

/-- A key number that the lookup raises on is one that the policy rejects (R196). -/
theorem latchable_keyIndexOutOfRange {x : RegIx} {s : State} (h : s.held x = none) :
    (Fault.keyIndexOutOfRange (s.readV x)).Latchable s.params := by
  refine ⟨nofun, nofun, ?_⟩
  rintro _ ⟨⟩
  exact held_none h

/-! ## The execute phase -/

/-- The state on which a form executes: the invariant, no gate closed, and `PC` at most 0x1000, since it was
fetched at 0xFFE or below (R92, R93). -/
structure State.Executing (s : State) : Prop where
  inv : s.Inv
  noFault : s.fault = none
  noWait : s.wait = none
  pcBound : s.pc.toNat ≤ 0x1000

section
variable {s : State}

theorem State.Executing.skipIf_inv (h : s.Executing) (b : Bool) : (s.skipIf b).Inv := by
  have hpc := h.pcBound
  refine h.inv.setPc ?_
  split
  · rw [BitVec.toNat_add_of_lt] <;> simp <;> omega
  · omega

theorem State.Executing.raise_inv (h : s.Executing) {f : Fault} (hf : f.Latchable s.params) :
    (s.setFault (some f)).Inv :=
  h.inv.raise h.noWait hf

/-- A jump goes to a 12-bit address. -/
theorem State.Inv.setPc_addr (h : s.Inv) (nnn : Addr) : (s.setPc (nnn.setWidth 16)).Inv := by
  refine h.setPc ?_
  have := nnn.isLt
  rw [Addr.setWidth_word_toNat]
  omega

theorem State.Executing.execRet_inv (h : s.Executing) {t : State} (ht : execRet s = .next t) : t.Inv := by
  rcases execRet_cases s with ⟨a, htop, he⟩ | ⟨-, he⟩
  · cases he.symm.trans ht
    have ha : a.toNat ≤ 0x1000 := h.inv.stackBound a (List.mem_of_getLast? htop)
    refine (h.inv.setStack (fun b hb => ?_) (fun d hd => ?_)).setPc (by omega)
    · exact h.inv.stackBound b (List.dropLast_subset _ hb)
    · have := h.inv.depthBound d hd
      rw [List.length_dropLast]
      omega
  · cases he.symm.trans ht
    exact h.raise_inv (latchable_stackUnderflow _)

theorem State.Executing.execCall_inv (h : s.Executing) {nnn : Addr} {t : State}
    (ht : execCall nnn s = .next t) : t.Inv := by
  rcases execCall_cases nnn s with ⟨hfull, he⟩ | ⟨hfull, he⟩
  · cases he.symm.trans ht
    refine (h.inv.setStack (fun b hb => ?_) (fun d hd => ?_)).setPc_addr nnn
    · rcases List.mem_append.1 hb with hb | hb
      · exact h.inv.stackBound b hb
      · rw [List.mem_singleton.1 hb]
        exact h.pcBound
    · have hlt : s.stack.length < d := by simpa [State.stackFull, hd] using hfull
      simpa using hlt
  · cases he.symm.trans ht
    exact h.raise_inv (latchable_stackOverflow hfull)

theorem State.Executing.execSkp_inv (h : s.Executing) {x : RegIx} {t : State}
    (ht : execSkp x s = .next t) : t.Inv := by
  rcases execSkp_cases x s with ⟨b, -, he⟩ | ⟨hheld, he⟩
  · cases he.symm.trans ht
    exact h.skipIf_inv b
  · cases he.symm.trans ht
    exact h.raise_inv (latchable_keyIndexOutOfRange hheld)

theorem State.Executing.execSknp_inv (h : s.Executing) {x : RegIx} {t : State}
    (ht : execSknp x s = .next t) : t.Inv := by
  rcases execSknp_cases x s with ⟨b, -, he⟩ | ⟨hheld, he⟩
  · cases he.symm.trans ht
    exact h.skipIf_inv (!b)
  · cases he.symm.trans ht
    exact h.raise_inv (latchable_keyIndexOutOfRange hheld)

/-- Bnnn's sum is at most 0x10FE (R118). -/
theorem State.Executing.execJpV0_inv (h : s.Executing) {nnn : Addr} {t : State}
    (ht : execJpV0 nnn s = .next t) : t.Inv := by
  cases ht
  refine h.inv.setPc ?_
  rw [BitVec.toNat_ofNat]
  exact (Nat.mod_le _ _).trans (byte_add_addr_le _ _)

/-- Every form keeps the invariant. -/
theorem State.Executing.exec_inv (h : s.Executing) {i : Instr} {t : State} (ht : exec i s = .next t) :
    t.Inv := by
  cases i with
  | cls => cases ht; exact (h.inv.setFb _).emit _
  | ret => exact h.execRet_inv ht
  | jp nnn => cases ht; exact h.inv.setPc_addr nnn
  | call nnn => exact h.execCall_inv ht
  | seImm x kk | sneImm x kk | seReg x y | sneReg x y => cases ht; exact h.skipIf_inv _
  | ldImm x kk | addImm x kk | ldReg x y | rnd x kk | ldVxDt x => cases ht; exact h.inv.setV x _
  | orReg x y | andReg x y | xorReg x y => cases ht; exact h.inv.resultThenFlag x _ _
  | addReg x y | subReg x y | shr x y | subnReg x y | shl x y =>
    cases ht; exact h.inv.flagThenResult x _ _
  | ldI nnn | addI x | ldF x => cases ht; exact h.inv.setI _
  | jpV0 nnn => exact h.execJpV0_inv ht
  | drw x y n => cases ht; exact (h.inv.setFb _).setV VF _
  | skp x => exact h.execSkp_inv ht
  | sknp x => exact h.execSknp_inv ht
  | ldVxK x => cases ht; exact h.inv.setWait (.inl h.noFault)
  | ldDtVx x => cases ht; exact h.inv.setDt _
  | ldStVx x => cases ht; exact h.inv.setSt _
  | ldB x => cases ht; exact h.inv.setMem (Memory.wf_writeRun _ _ h.inv.memCanonical)
  | storeRegs x => cases ht; exact (h.inv.setMem (Memory.wf_writeRun _ _ h.inv.memCanonical)).setI _
  | loadRegs x => cases ht; exact (h.inv.setRegs _).setI _

end

/-! ## The host operations -/

section
variable {s : State}

/-- A fetch at 0xFFE or below leaves `PC` at most 0x1000 (R92, R93). -/
theorem advance_pc_le (hpc : ¬ lastFetch < s.pc.toNat) : s.advance.pc.toNat ≤ 0x1000 := by
  have hle : s.pc.toNat ≤ 0xFFE := Nat.not_lt.1 hpc
  rw [State.advance_pc, BitVec.toNat_add]
  exact (Nat.mod_le _ _).trans (Nat.add_le_add_right hle 2)

theorem State.Inv.advance (h : s.Inv) (hpc : ¬ lastFetch < s.pc.toNat) : s.advance.Inv :=
  h.setPc ((advance_pc_le hpc).trans (by decide))

theorem State.Inv.tick (h : s.Inv) : (tick s).Inv := (h.setDt _).setSt _

theorem State.Inv.loadProgram (h : s.Inv) (bytes : List Byte) : (loadProgram bytes s).Inv := by
  unfold Machine.loadProgram
  split
  · exact (h.setMem (Memory.wf_writeRun _ _ h.memCanonical)).emit _
  · exact h.emit _

theorem State.Inv.hardReset (h : s.Inv) : (hardReset s).Inv where
  memCanonical := hardReset_mem_wf h.memCanonical
  pcBound := by rw [hardReset_pc]; decide
  stackBound := by simp
  oneGate := .inl rfl
  depthBound := by simp
  loadFaultNotLatched := nofun
  overflowOnlyIfFinite := nofun
  keyFaultOnlyIfPolicy := nofun

end

/-- Settles O14: each way that a transition can go is a composition of updates that keep the invariant. -/
theorem everyOperationKeepsTheInvariant : Obligations.EveryOperationKeepsTheInvariant := by
  intro s t h hstep
  cases step_cases hstep with
  | gated keys rnd rest hop hg ht => subst ht; exact h.setHost rest
  | outOfRange keys rnd rest hop hg hpc ht =>
    subst ht
    exact (h.sampled keys rnd rest).raise (State.gated_eq_false.1 hg).2 (latchable_fetchOutOfRange _ _)
  | illegal keys rnd rest hop hg hpc hd ht =>
    subst ht
    exact ((h.sampled keys rnd rest).advance hpc).raise (State.gated_eq_false.1 hg).2
      (latchable_unknownOpcode _ _)
  | executed keys rnd rest i hop hg hpc hd ht =>
    obtain ⟨hfault, hwait⟩ := State.gated_eq_false.1 hg
    have hexec : (s.sampled keys rnd rest).advance.Executing :=
      ⟨(h.sampled keys rnd rest).advance hpc, hfault, hwait, advance_pc_le (s := s) hpc⟩
    exact hexec.exec_inv ht
  | ticked rest hop ht => subst ht; exact (h.setHost rest).tick
  | delivered k rest hop hk ht =>
    subst ht
    cases s.wait with
    | none => exact h.setHost rest
    | some x => exact ((h.setHost rest).setV x _).setWait (.inr rfl)
  | loaded bytes rest hop ht => subst ht; exact (h.setHost rest).loadProgram bytes
  | wasReset rest hop ht => subst ht; exact (h.setHost rest).hardReset

/-- Settles O15: every value that power-on gives meets its clause. -/
theorem resetStateHasTheInvariant : Obligations.ResetStateHasTheInvariant where
  memCanonical := State.reset_mem_wf
  pcBound := by decide
  stackBound := nofun
  oneGate := .inl rfl
  depthBound := nofun
  loadFaultNotLatched := nofun
  overflowOnlyIfFinite := nofun
  keyFaultOnlyIfPolicy := nofun

end Sys2Proof.Machine
end

section
/-! PROOFS. Whole-machine rules: what each part of the state can be changed by, and the fault latch. -/

namespace Sys2Proof.Machine

/-! ## The execute phase, from a state it answers -/

theorem exec_frame {i : Instr} {s t : State} (h : exec i s = .next t) : s.unchangedBut t (execChanges i) := by
  obtain ⟨u, hu, hframe⟩ := exec_next i s
  cases hu.symm.trans h
  exact hframe

theorem frame_tick (s : State) : s.unchangedBut (tick s) [.dt, .st] :=
  State.frame_two (s.frame_setDt _) (State.frame_setSt _ _)

theorem frame_loadProgram (bytes : List Byte) (s : State) :
    s.unchangedBut (loadProgram bytes s) [.mem, .events] := by
  unfold loadProgram
  split
  · exact State.frame_two (s.frame_setMem _) (State.frame_emit _ _)
  · exact State.unchangedBut_mono (by simp) (s.frame_emit _)

theorem frame_delivered (s : State) (x : RegIx) (b : Byte) :
    s.unchangedBut ((s.setV x b).setWait none) [.regs, .wait] :=
  State.frame_two (s.frame_setV x b) (State.frame_setWait _ none)

/-! ## The next operation of the queue -/

/-- A queue whose head is not a `step` is not empty. -/
theorem State.nextIsStep.head_isStep {s : State} {keys : KeyLevels} {rnd : Byte} {rest : List HostOp}
    (h : s.nextIsStep keys rnd rest) {op : HostOp} (hop : s.host.head? = some op) : op.isStep = true := by
  rcases h with h | ⟨h, -⟩
  · rw [h] at hop
    cases hop
    rfl
  · rw [h] at hop
    cases hop

/-! ## What changes a part of the state -/

/-- The ways in which a transition from `s` to `t` can change a part `p` other than `PC`, the latch, the sampled
inputs and the queue. -/
inductive PartChange (s t : State) (p : Part) : Prop where
  | executed (keys : KeyLevels) (rnd : Byte) (rest : List HostOp) (i : Instr)
      (hd : decodeWord s.fetchWord = some i) (hp : p ∈ execChanges i)
      (ht : exec i (s.sampled keys rnd rest).advance = .next t)
  | ticked (hop : s.host.head? = some .tick) (hp : p ∈ [Part.dt, .st])
  | delivered (k : Nat) (x : RegIx) (hop : s.host.head? = some (.deliverKey k)) (hwait : s.wait = some x)
      (rest : List HostOp) (ht : t = ((s.setHost rest).setV x (BitVec.ofNat 8 k)).setWait none)
      (hp : p ∈ [Part.regs, .wait])
  | loaded (bytes : List Byte) (rest : List HostOp) (hop : s.host.head? = some (.loadProgram bytes))
      (ht : t = loadProgram bytes (s.setHost rest)) (hp : p ∈ [Part.mem, .events])
  | wasReset (rest : List HostOp) (hop : s.host.head? = some .reset) (ht : t = hardReset (s.setHost rest))

/-- A part outside the frame `l` of an update has not changed, so a part that changed is in `l`. -/
theorem State.unchangedBut.mem_of_changed {s t : State} {l : List Part} (h : s.unchangedBut t l) {p : Part}
    (hp : ¬ s.samePart t p) : p ∈ l :=
  not_not.1 (mt (h p) hp)

/-- Every change of a part other than `PC`, the latch, the inputs and the queue comes about in one of these
ways. -/
theorem step_partChange {s t : State} {p : Part} (h : step s = .next t) (hp : ¬ s.samePart t p)
    (hpart : p ∉ [Part.pc, .fault, .inputs, .host]) : PartChange s t p := by
  have hhost : p ∉ [Part.host] := fun hm => hpart (by simp_all)
  cases step_cases h with
  | gated keys rnd rest hop hg ht =>
    subst ht
    exact absurd ((s.frame_setHost rest).mem_of_changed hp) hhost
  | outOfRange keys rnd rest hop hg hpc ht =>
    subst ht
    have hm :=
      (State.frame_two (s.frame_sampled keys rnd rest) (State.frame_setFault _ _)).mem_of_changed hp
    exact absurd hm (by simp_all)
  | illegal keys rnd rest hop hg hpc hd ht =>
    subst ht
    have hm := (State.frame_two (State.frame_two (s.frame_sampled keys rnd rest) (State.frame_advance _))
      (State.frame_setFault _ _)).mem_of_changed hp
    exact absurd hm (by simp_all)
  | executed keys rnd rest i hop hg hpc hd ht =>
    have hm := (State.frame_two (State.frame_two (s.frame_sampled keys rnd rest) (State.frame_advance _))
      (exec_frame ht)).mem_of_changed hp
    exact .executed keys rnd rest i hd (by simp_all) ht
  | ticked rest hop ht =>
    subst ht
    have hm := (State.frame_two (s.frame_setHost rest) (frame_tick _)).mem_of_changed hp
    exact .ticked (by rw [hop]; rfl) ((List.mem_append.1 hm).resolve_left hhost)
  | delivered k rest hop hk ht =>
    cases hw : s.wait with
    | none =>
      rw [hw] at ht
      subst ht
      exact absurd ((s.frame_setHost rest).mem_of_changed hp) hhost
    | some x =>
      rw [hw] at ht
      subst ht
      have hm := (State.frame_two (s.frame_setHost rest) (frame_delivered _ x _)).mem_of_changed hp
      exact .delivered k x (by rw [hop]; rfl) hw rest rfl ((List.mem_append.1 hm).resolve_left hhost)
  | loaded bytes rest hop ht =>
    subst ht
    have hm := (State.frame_two (s.frame_setHost rest) (frame_loadProgram bytes _)).mem_of_changed hp
    exact .loaded bytes rest (by rw [hop]; rfl) rfl ((List.mem_append.1 hm).resolve_left hhost)
  | wasReset rest hop ht => exact .wasReset rest (by rw [hop]; rfl) ht

/-- Settles O16: no form lists the parameters among its changes, and `reset` keeps them. -/
theorem parametersNeverChange : Obligations.ParametersNeverChange := by
  intro s t h
  by_contra hne
  cases step_partChange (p := .params) h hne (by decide) with
  | executed keys rnd rest i hd hp ht => cases i <;> simp [execChanges] at hp
  | ticked hop hp => simp at hp
  | delivered k x hop hwait rest ht hp => simp at hp
  | loaded bytes rest hop ht hp => simp at hp
  | wasReset rest hop ht => exact hne (by rw [ht]; rfl)

/-! ## The frame buffer -/

theorem mem_execChanges_fb {i : Instr} (h : Part.fb ∈ execChanges i) :
    i = .cls ∨ ∃ x y n, i = .drw x y n := by
  cases i <;> simp_all [execChanges]

/-- Settles O17: of the forms, only 00E0 and Dxyn change the frame buffer. -/
theorem onlyResetClearAndDrawChangeTheFrameBuffer : Obligations.OnlyResetClearAndDrawChangeTheFrameBuffer := by
  rintro s t h ⟨r, c, hne⟩
  cases step_partChange (p := .fb) h (fun hsame => hne (hsame r c)) (by decide) with
  | executed keys rnd rest i hd hp ht =>
    rcases mem_execChanges_fb hp with rfl | ⟨x, y, n, rfl⟩
    · cases ht
      exact .inl ⟨.inr hd, FrameBuffer.cell_clear⟩
    · exact .inr ⟨x, y, n, hd⟩
  | ticked hop hp => simp at hp
  | delivered k x hop hwait rest ht hp => simp at hp
  | loaded bytes rest hop ht hp => simp at hp
  | wasReset rest hop ht =>
    subst ht
    exact .inl ⟨.inl hop, hardReset_cell _⟩

/-! ## The call stack -/

theorem mem_execChanges_stack {i : Instr} (h : Part.stack ∈ execChanges i) :
    i = .ret ∨ ∃ nnn, i = .call nnn := by
  cases i <;> simp_all [execChanges]

theorem execRet_stack {s t : State} (h : execRet s = .next t) (hne : t.stack ≠ s.stack) :
    t.stack = s.stack.dropLast := by
  rcases execRet_cases s with ⟨a, -, he⟩ | ⟨-, he⟩
  · cases he.symm.trans h
    rfl
  · cases he.symm.trans h
    exact absurd rfl hne

theorem execCall_stack {nnn : Addr} {s t : State} (h : execCall nnn s = .next t) (hne : t.stack ≠ s.stack) :
    t.stack = s.stack ++ [s.pc] := by
  rcases execCall_cases nnn s with ⟨-, he⟩ | ⟨-, he⟩
  · cases he.symm.trans h
    rfl
  · cases he.symm.trans h
    exact absurd rfl hne

/-- Settles O18: of the forms, only 00EE and 2nnn change the stack, and each in one way only. -/
theorem onlyResetCallAndReturnChangeTheStack : Obligations.OnlyResetCallAndReturnChangeTheStack := by
  intro s t h hne
  cases step_partChange (p := .stack) h hne (by decide) with
  | executed keys rnd rest i hd hp ht =>
    rcases mem_execChanges_stack hp with rfl | ⟨nnn, rfl⟩
    · exact .inr (.inr ⟨hd, execRet_stack (s := (s.sampled keys rnd rest).advance) ht hne⟩)
    · exact .inr (.inl ⟨nnn, hd, execCall_stack (s := (s.sampled keys rnd rest).advance) ht hne⟩)
  | ticked hop hp => simp at hp
  | delivered k x hop hwait rest ht hp => simp at hp
  | loaded bytes rest hop ht hp => simp at hp
  | wasReset rest hop ht =>
    subst ht
    exact .inl ⟨hop, rfl⟩

/-! ## Memory -/

/-- A byte that a run of writes changes lies in the run. -/
theorem Memory.exists_of_writeRun_ne {m : Memory} (hm : m.wf = true) {base : Nat} {bs : List Byte} {a : Addr}
    (h : (m.writeRun base bs).read a ≠ m.read a) : ∃ k < bs.length, a = addrOf base k := by
  by_contra hne
  exact h (Memory.read_writeRun_outside base bs a hm (fun k hk e => hne ⟨k, hk, e⟩))

theorem State.mem_eaRange {s : State} {n : Nat} {a : Addr} : a ∈ s.eaRange n ↔ ∃ k < n, a = s.ea k := by
  simp [State.eaRange, eq_comm]

@[simp] theorem State.regsUpTo_length (s : State) (x : RegIx) : (s.regsUpTo x).length = x.val + 1 := by
  simp only [State.regsUpTo, List.length_take, Vector.length_toList]
  omega

theorem mem_execChanges_mem {i : Instr} (h : Part.mem ∈ execChanges i) :
    ∃ x, i = .ldB x ∨ i = .storeRegs x := by
  cases i <;> simp_all [execChanges]

/-- A byte that `loadProgram` changes lies in the window of its image (R244). -/
theorem loadProgram_changed {bytes : List Byte} {s : State} {a : Addr} (hm : s.mem.wf = true)
    (h : (loadProgram bytes s).readByte a ≠ s.readByte a) :
    0x200 ≤ a.toNat ∧ a.toNat < 0x200 + bytes.length := by
  unfold loadProgram at h
  split at h
  · next hfit =>
    obtain ⟨k, hk, rfl⟩ := Memory.exists_of_writeRun_ne hm h
    have hbase : progBase.toNat = 0x200 := rfl
    simp only [hbase, memSize] at hfit
    simp only [addrOf, BitVec.toNat_ofNat, hbase]
    omega
  · exact absurd rfl h

/-- Settles O19: of the forms, only Fx33 and Fx55 write memory, and every write is a run of bytes. -/
theorem onlyStoresLoadsAndResetChangeMemory : Obligations.OnlyStoresLoadsAndResetChangeMemory := by
  intro s t a hm h hne
  cases step_partChange (p := .mem) h (fun hsame => hne (hsame a)) (by decide) with
  | executed keys rnd rest i hd hp ht =>
    obtain ⟨x, rfl | rfl⟩ := mem_execChanges_mem hp
    · cases ht
      exact .inl ⟨x, hd, State.mem_eaRange.2 (Memory.exists_of_writeRun_ne hm hne)⟩
    · cases ht
      have hrun := Memory.exists_of_writeRun_ne hm hne
      rw [State.regsUpTo_length] at hrun
      exact .inr (.inl ⟨x, hd, State.mem_eaRange.2 hrun⟩)
  | ticked hop hp => simp at hp
  | delivered k x hop hwait rest ht hp => simp at hp
  | loaded bytes rest hop ht hp =>
    subst ht
    exact .inr (.inr (.inl ⟨bytes, hop, loadProgram_changed (s := s.setHost rest) hm hne⟩))
  | wasReset rest hop ht =>
    subst ht
    refine .inr (.inr (.inr ⟨hop, ?_⟩))
    by_contra hlow
    exact hne (hardReset_readByte_above (s := s.setHost rest) hm (Nat.not_lt.1 hlow))

/-! ## `VF` -/

/-- The forms that can change `VF` (R22): as flag, or as destination. -/
def CanWriteVF (i : Instr) : Prop :=
  (∃ x y, i = .orReg x y ∨ i = .andReg x y ∨ i = .xorReg x y ∨ i = .addReg x y ∨ i = .subReg x y ∨
    i = .shr x y ∨ i = .subnReg x y ∨ i = .shl x y) ∨
  (∃ x y n, i = .drw x y n) ∨
  (∃ kk, i = .ldImm VF kk ∨ i = .addImm VF kk ∨ i = .rnd VF kk) ∨
  (∃ y, i = .ldReg VF y) ∨ i = .ldVxDt VF ∨ i = .loadRegs VF

/-- A write to one register changes `VF` only where it is that register. -/
theorem eq_VF_of_setV {s : State} {x : RegIx} {b : Byte} (h : (s.setV x b).readV VF ≠ s.readV VF) : x = VF := by
  by_contra hx
  exact h (s.setV_readV_ne b (Ne.symm hx))

theorem eq_VF_of_loadedRegs {s : State} {x : RegIx} (h : (s.setRegs (s.loadedRegs x)).readV VF ≠ s.readV VF) :
    x = VF := by
  by_contra hx
  have hle : ¬ VF ≤ x := fun hle => hx (le_antisymm (Fin.le_last x) hle)
  exact h (by simp [State.loadedRegs, hle])

theorem exec_canWriteVF {i : Instr} {s t : State} (h : exec i s = .next t) (hne : t.readV VF ≠ s.readV VF) :
    CanWriteVF i := by
  have hregs : Part.regs ∈ execChanges i :=
    (exec_frame h).mem_of_changed (fun hsame => hne (hsame VF))
  cases i with
  | ldImm x kk | addImm x kk | rnd x kk | ldReg x y | ldVxDt x =>
    cases h
    cases eq_VF_of_setV hne
    simp [CanWriteVF]
  | orReg x y | andReg x y | xorReg x y | addReg x y | subReg x y | shr x y | subnReg x y | shl x y
  | drw x y n => simp [CanWriteVF]
  | loadRegs x =>
    cases h
    cases eq_VF_of_loadedRegs hne
    simp [CanWriteVF]
  | _ => simp [execChanges] at hregs

/-- Settles O20: the forms that write a register either have `VF` as their flag or write one named register. -/
theorem onlyFlagFormsAndDestinationsChangeVF : Obligations.OnlyFlagFormsAndDestinationsChangeVF := by
  intro s t h hne
  cases step_partChange (p := .regs) h (fun hsame => hne (hsame VF)) (by decide) with
  | executed keys rnd rest i hd hp ht => exact .inl ⟨i, hd, exec_canWriteVF ht hne⟩
  | ticked hop hp => simp at hp
  | delivered k x hop hwait rest ht hp =>
    subst ht
    cases eq_VF_of_setV (s := s.setHost rest) hne
    exact .inr (.inl ⟨k, hop, hwait⟩)
  | loaded bytes rest hop ht hp => simp at hp
  | wasReset rest hop ht => exact .inr (.inr hop)

/-! ## The fault latch -/

/-- Settles O11: a latched fault closes the gate for steps, and with it no wait is on, so that a delivered key
changes nothing; `tick` and `loadProgram` do not touch the latch. -/
theorem faultLatchHoldsUntilReset : Obligations.FaultLatchHoldsUntilReset := by
  intro s t f hinv hf h
  have hgate : s.gated ≠ false := fun hg => by simp [(State.gated_eq_false.1 hg).1] at hf
  have hwait : s.wait = none := hinv.oneGate.resolve_left (by simp [hf])
  cases step_cases h with
  | gated keys rnd rest hop hg ht =>
    subst ht
    refine ⟨fun hr => absurd (hop.head_isStep hr) (by decide), fun _ => ⟨hf, ?_⟩⟩
    exact State.unchangedBut_mono (by simp) (s.frame_setHost rest)
  | outOfRange keys rnd rest hop hg hpc ht => exact absurd hg hgate
  | illegal keys rnd rest hop hg hpc hd ht => exact absurd hg hgate
  | executed keys rnd rest i hop hg hpc hd ht => exact absurd hg hgate
  | ticked rest hop ht =>
    subst ht
    refine ⟨by simp [hop], fun _ => ⟨hf, ?_⟩⟩
    exact State.unchangedBut_mono (by simp) (State.frame_two (s.frame_setHost rest) (frame_tick _))
  | delivered k rest hop hk ht =>
    rw [hwait] at ht
    subst ht
    refine ⟨by simp [hop], fun _ => ⟨hf, ?_⟩⟩
    exact State.unchangedBut_mono (by simp) (s.frame_setHost rest)
  | loaded bytes rest hop ht =>
    subst ht
    have hframe := State.frame_two (s.frame_setHost rest) (frame_loadProgram bytes _)
    refine ⟨by simp [hop], fun _ => ⟨(hframe .fault (by simp)).trans hf, ?_⟩⟩
    exact State.unchangedBut_mono (by simp) hframe
  | wasReset rest hop ht =>
    subst ht
    exact ⟨fun _ => rfl, fun hr => absurd (by rw [hop]; rfl) hr⟩

end Sys2Proof.Machine
end

section
/-! PROOFS. The timers and the inputs of a step (R91, log 3): only Fx15 and Fx18 write a timer, and a form does the
same with inputs it does not look at. -/

namespace Sys2Proof.Machine

/-! ## The timers -/

theorem mem_execChanges_dt {i : Instr} (h : Part.dt ∈ execChanges i) : ∃ x, i = .ldDtVx x := by
  cases i <;> simp_all [execChanges]

theorem mem_execChanges_st {i : Instr} (h : Part.st ∈ execChanges i) : ∃ x, i = .ldStVx x := by
  cases i <;> simp_all [execChanges]

/-- A step by itself is the transition of the machine whose queue asks for it. -/
theorem step_of_queued (keys : KeyLevels) (rnd : Byte) (s : State) :
    step (s.setHost (.step keys rnd :: s.host)) = coreStep keys rnd s :=
  step_of_host_cons (s := s.setHost (.step keys rnd :: s.host)) (op := .step keys rnd)
    (rest := s.host) rfl

/-- A step changes a part other than `PC`, the latch, the inputs and the queue only by the form it executes. -/
theorem coreStep_changed {s t : State} {keys : KeyLevels} {rnd : Byte} {p : Part}
    (h : coreStep keys rnd s = .next t) (hp : ¬ s.samePart t p)
    (hpart : p ∉ [Part.pc, .fault, .inputs, .host]) :
    ∃ i, decodeWord s.fetchWord = some i ∧ p ∈ execChanges i := by
  have hp' : ¬ (s.setHost (.step keys rnd :: s.host)).samePart t p := fun hsame =>
    hp (State.samePart_trans (s.frame_setHost _ p (fun hm => hpart (by simp_all))) hsame)
  cases step_partChange ((step_of_queued keys rnd s).trans h) hp' hpart with
  | executed keys rnd rest i hd hp ht => exact ⟨i, hd, hp⟩
  | ticked hop hp => cases hop
  | delivered k x hop hwait rest ht hp => cases hop
  | loaded bytes rest hop ht hp => cases hop
  | wasReset rest hop ht => cases hop

/-! ## The sampled inputs -/

/-- The state with other sampled inputs. -/
def State.withInputs (s : State) (keys : KeyLevels) (rnd : Byte) : State := { s with keys := keys, rnd := rnd }

theorem State.setInputs_withInputs (s : State) (keys keys' : KeyLevels) (rnd rnd' : Byte) :
    (s.setInputs keys rnd).withInputs keys' rnd' = s.setInputs keys' rnd' := rfl

/-- The inputs `keys` and `rnd` differ from those of `s` only where the form `i` does not look: the keys where it
is neither Ex9E nor ExA1, the random byte where it is not Cxkk. -/
structure InputsUnseen (i : Instr) (s : State) (keys : KeyLevels) (rnd : Byte) : Prop where
  keys : keys = s.keys ∨ ∀ x, i ≠ .skp x ∧ i ≠ .sknp x
  rnd : rnd = s.rnd ∨ ∀ x kk, i ≠ .rnd x kk

section
variable {i : Instr} {s t : State} {keys : KeyLevels} {rnd : Byte} {x : RegIx}

theorem execRet_withInputs (h : execRet s = .next t) :
    execRet (s.withInputs keys rnd) = .next (t.withInputs keys rnd) := by
  rcases execRet_cases s with ⟨a, htop, he⟩ | ⟨hnil, he⟩
  · cases he.symm.trans h
    exact execRet_of_getLast? (s := s.withInputs keys rnd) htop
  · cases he.symm.trans h
    exact execRet_of_nil (s := s.withInputs keys rnd) hnil

theorem execCall_withInputs {nnn : Addr} (h : execCall nnn s = .next t) :
    execCall nnn (s.withInputs keys rnd) = .next (t.withInputs keys rnd) := by
  rcases execCall_cases nnn s with ⟨hfull, he⟩ | ⟨hfull, he⟩
  · cases he.symm.trans h
    exact execCall_of_room (s := s.withInputs keys rnd) nnn hfull
  · cases he.symm.trans h
    exact execCall_of_full (s := s.withInputs keys rnd) nnn hfull

theorem execSkp_withRnd (h : execSkp x s = .next t) :
    execSkp x (s.withInputs s.keys rnd) = .next (t.withInputs s.keys rnd) := by
  rcases execSkp_cases x s with ⟨b, hheld, he⟩ | ⟨hheld, he⟩
  · cases he.symm.trans h
    exact execSkp_of_some (s := s.withInputs s.keys rnd) hheld
  · cases he.symm.trans h
    exact execSkp_of_none (s := s.withInputs s.keys rnd) hheld

theorem execSknp_withRnd (h : execSknp x s = .next t) :
    execSknp x (s.withInputs s.keys rnd) = .next (t.withInputs s.keys rnd) := by
  rcases execSknp_cases x s with ⟨b, hheld, he⟩ | ⟨hheld, he⟩
  · cases he.symm.trans h
    exact execSknp_of_some (s := s.withInputs s.keys rnd) hheld
  · cases he.symm.trans h
    exact execSknp_of_none (s := s.withInputs s.keys rnd) hheld

/-- A form does the same with inputs that it does not look at. -/
theorem exec_withInputs (hin : InputsUnseen i s keys rnd) (h : exec i s = .next t) :
    exec i (s.withInputs keys rnd) = .next (t.withInputs keys rnd) := by
  obtain ⟨hkeys, hrnd⟩ := hin
  cases i with
  | ret => exact execRet_withInputs h
  | call nnn => exact execCall_withInputs h
  | skp x =>
    obtain rfl := hkeys.resolve_right (fun hne => (hne x).1 rfl)
    exact execSkp_withRnd h
  | sknp x =>
    obtain rfl := hkeys.resolve_right (fun hne => (hne x).2 rfl)
    exact execSknp_withRnd h
  | rnd x kk =>
    obtain rfl := hrnd.resolve_right (fun hne => hne x kk rfl)
    cases h
    rfl
  | _ => cases h; rfl

/-- Fetch, decode and execute do the same with inputs that the decoded form does not look at. -/
theorem runInstr_withInputs (hin : ∀ i, decodeWord s.fetchWord = some i → InputsUnseen i s keys rnd)
    (h : runInstr s = .next t) : runInstr (s.withInputs keys rnd) = .next (t.withInputs keys rnd) := by
  by_cases hpc : lastFetch < s.pc.toNat
  · cases (runInstr_outOfRange hpc).symm.trans h
    exact runInstr_outOfRange (s := s.withInputs keys rnd) hpc
  · cases hd : decodeWord s.fetchWord with
    | none =>
      cases (runInstr_illegal hpc hd).symm.trans h
      exact runInstr_illegal (s := s.withInputs keys rnd) hpc hd
    | some i =>
      rw [runInstr_exec hpc hd] at h
      rw [runInstr_exec (s := s.withInputs keys rnd) hpc hd]
      exact exec_withInputs (s := s.advance) ⟨(hin i hd).keys, (hin i hd).rnd⟩ h

/-- The execute phase leaves the sampled inputs as they are. -/
theorem runInstr_inputs (h : runInstr s = .next t) : t.keys = s.keys ∧ t.rnd = s.rnd := by
  by_cases hpc : lastFetch < s.pc.toNat
  · cases (runInstr_outOfRange hpc).symm.trans h
    exact ⟨rfl, rfl⟩
  · cases hd : decodeWord s.fetchWord with
    | none =>
      cases (runInstr_illegal hpc hd).symm.trans h
      exact ⟨rfl, rfl⟩
    | some i =>
      rw [runInstr_exec hpc hd] at h
      have hin : Part.inputs ∉ execChanges i := by cases i <;> simp [execChanges]
      obtain ⟨hkeys, hrnd, -⟩ := exec_frame h .inputs hin
      exact ⟨hkeys, hrnd⟩

/-- A step with other inputs that the decoded form does not look at does the same, but for the sampled inputs. -/
theorem coreStep_other_inputs {keys' : KeyLevels} {rnd' : Byte} (h : coreStep keys rnd s = .next t)
    (hkeys : keys' = keys ∨
      ∀ x, decodeWord s.fetchWord ≠ some (.skp x) ∧ decodeWord s.fetchWord ≠ some (.sknp x))
    (hrnd : rnd' = rnd ∨ ∀ x kk, decodeWord s.fetchWord ≠ some (.rnd x kk)) :
    ∃ u, coreStep keys' rnd' s = .next u ∧
      (u = t ∨ t.keys = keys ∧ t.rnd = rnd ∧ u = t.withInputs keys' rnd') := by
  cases hg : s.gated
  · rw [coreStep_running keys rnd hg] at h
    have hin : ∀ i, decodeWord s.fetchWord = some i → InputsUnseen i (s.setInputs keys rnd) keys' rnd' := by
      intro i hd
      rw [hd] at hkeys hrnd
      exact ⟨by simpa using hkeys, by simpa using hrnd⟩
    obtain ⟨htk, htr⟩ := runInstr_inputs h
    refine ⟨t.withInputs keys' rnd', ?_, .inr ⟨htk, htr, rfl⟩⟩
    rw [coreStep_running keys' rnd' hg, ← s.setInputs_withInputs keys keys' rnd rnd']
    exact runInstr_withInputs hin h
  · refine ⟨s, coreStep_gated keys' rnd' hg, .inl ?_⟩
    exact Host.Outcome.next.inj ((coreStep_gated keys rnd hg).symm.trans h)

end

/-- Settles O13: each timer is changed by one form, and a form does the same with inputs it does not look at. -/
theorem stepsTouchTimersAndInputsOnlyThroughTheirForms :
    Obligations.StepsTouchTimersAndInputsOnlyThroughTheirForms := by
  intro s t keys keys' rnd rnd' h
  refine ⟨fun hne => ?_, fun hne => ?_, fun hskp hsknp => ?_, fun hform => ?_⟩
  · obtain ⟨i, hd, hp⟩ := coreStep_changed (p := .dt) h hne (by decide)
    obtain ⟨x, rfl⟩ := mem_execChanges_dt hp
    exact ⟨x, hd⟩
  · obtain ⟨i, hd, hp⟩ := coreStep_changed (p := .st) h hne (by decide)
    obtain ⟨x, rfl⟩ := mem_execChanges_st hp
    exact ⟨x, hd⟩
  · obtain ⟨u, hu, hut⟩ := coreStep_other_inputs (keys' := keys') h
      (.inr fun x => ⟨hskp x, hsknp x⟩) (.inl rfl)
    refine ⟨u, hu, ?_⟩
    rcases hut with rfl | ⟨-, rfl, rfl⟩ <;> rfl
  · obtain ⟨u, hu, hut⟩ := coreStep_other_inputs (rnd' := rnd') h (.inl rfl) (.inr hform)
    refine ⟨u, hu, ?_⟩
    rcases hut with rfl | ⟨rfl, -, rfl⟩ <;> rfl

end Sys2Proof.Machine
end

section
/-! PROOFS. Memory through `I` (43_index_memory.md): BCD, register save and restore, the round trip, and a store
over the instruction stream (R163 to R166; R62). -/

namespace Sys2Proof.Machine

/-! ## A run of bytes stored from `EA(0)` up -/

section
variable {s : State}

/-- Byte k of a run stored through `I` is at `EA(k)`. -/
theorem State.read_run_ea {m : Memory} (hm : m.wf = true) {bs : List Byte} (hlen : bs.length ≤ memSize) {k : Nat}
    (hk : k < bs.length) : (m.writeRun s.i.toNat bs).read (s.ea k) = bs[k] :=
  Memory.read_writeRun_at s.i.toNat bs k hk hm hlen

/-- A run stored through `I` changes no byte outside its addresses. -/
theorem State.memUnchangedOutside_run (hm : s.mem.wf = true) {bs : List Byte} {t : State}
    (ht : t.mem = s.mem.writeRun s.i.toNat bs) : s.memUnchangedOutside t (s.eaRange bs.length) := by
  intro a ha
  rw [State.readByte, ht]
  exact Memory.read_writeRun_outside _ _ a hm (fun k hk e => ha (State.mem_eaRange.2 ⟨k, hk, e⟩))

/-- Register r of a bulk move is the item r of its list (R164). -/
theorem State.regsUpTo_getElem {x r : RegIx} (h : r.val < (s.regsUpTo x).length) :
    (s.regsUpTo x)[r.val] = s.readV r := by
  simp [State.regsUpTo, State.readV]

/-- The registers stored from `EA(0)` up, read back one by one. -/
theorem State.read_storedRegs (hm : s.mem.wf = true) {x r : RegIx} (hr : r ≤ x) :
    (s.mem.writeRun s.i.toNat (s.regsUpTo x)).read (s.ea r.val) = s.readV r := by
  have hlen : (s.regsUpTo x).length = x.val + 1 := s.regsUpTo_length x
  have hk : r.val < (s.regsUpTo x).length := hlen ▸ Nat.lt_succ_of_le hr
  rw [State.read_run_ea hm (by rw [hlen, memSize]; omega) hk, State.regsUpTo_getElem hk]

/-- `I` after a bulk move (R164). -/
theorem State.indexAfterBulk_toNat (s : State) (x : RegIx) : (s.indexAfterBulk x).toNat =
    if s.params.quirkIncrI = true then (s.i.toNat + x.val + 1) % 65536 else s.i.toNat := by
  unfold State.indexAfterBulk
  split
  · exact BitVec.toNat_ofNat _ _
  · rfl

/-- The registers after Fx65, one by one (R166). -/
theorem State.loadedRegs_getElem (s : State) (x r : RegIx) :
    (s.loadedRegs x)[r] = if r ≤ x then s.readByte (s.ea r.val) else s.readV r := by
  simp [State.loadedRegs]

end

/-- A number that is at most a byte loses no bit in a byte. -/
theorem Byte.ofNat_toNat_of_le {n : Nat} {b : Byte} (h : n ≤ b.toNat) : (BitVec.ofNat 8 n).toNat = n := by
  rw [BitVec.toNat_ofNat]
  exact Nat.mod_eq_of_lt (h.trans_lt b.isLt)

/-- Settles O39: the digits are a run of three bytes, and no digit is above the byte it comes from. -/
theorem bcdStoresThreeDigits : Obligations.BcdStoresThreeDigits := by
  intro x s hm
  have hread : ∀ (k : Nat) (hk : k < (bcdDigits (s.readV x)).length),
      (s.setMem (s.mem.writeRun s.i.toNat (bcdDigits (s.readV x)))).readByte (s.ea k) =
        (bcdDigits (s.readV x))[k] :=
    fun k hk => State.read_run_ea hm (bs := bcdDigits (s.readV x)) (show 3 ≤ memSize by decide) hk
  have h0 := (congrArg BitVec.toNat (hread 0 (show 0 < 3 by decide))).trans
    (Byte.ofNat_toNat_of_le (Nat.div_le_self _ 100))
  have h1 := (congrArg BitVec.toNat (hread 1 (show 1 < 3 by decide))).trans
    (Byte.ofNat_toNat_of_le ((Nat.mod_le _ 10).trans (Nat.div_le_self _ 10)))
  have h2 := (congrArg BitVec.toNat (hread 2 (show 2 < 3 by decide))).trans
    (Byte.ofNat_toNat_of_le (Nat.mod_le _ 10))
  refine ⟨_, rfl, h0, h1, h2, ?_, State.memUnchangedOutside_run (bs := bcdDigits (s.readV x)) hm rfl,
    s.frame_setMem _⟩
  rw [h0, h1, h2]
  omega

/-- Settles O40: register r is byte r of the run. -/
theorem storeRegistersWritesTheRun : Obligations.StoreRegistersWritesTheRun := by
  intro x s hm
  refine ⟨_, rfl, fun r hr => State.read_storedRegs hm hr, ?_, s.indexAfterBulk_toNat x,
    State.frame_two (s.frame_setMem _) (State.frame_setI _ _)⟩
  have hout := State.memUnchangedOutside_run (bs := s.regsUpTo x)
    (t := (s.setMem (s.mem.writeRun s.i.toNat (s.regsUpTo x))).setI (s.indexAfterBulk x)) hm rfl
  rwa [s.regsUpTo_length x] at hout

/-- Settles O41: the loaded file splits at `V[x]`. -/
theorem loadRegistersReadsTheRun : Obligations.LoadRegistersReadsTheRun := by
  intro x s
  refine ⟨_, rfl, fun r hr => ?_, fun r hr => ?_, s.indexAfterBulk_toNat x,
    State.frame_two (s.frame_setRegs _) (State.frame_setI _ _)⟩
  · exact (s.loadedRegs_getElem x r).trans (if_pos hr)
  · exact (s.loadedRegs_getElem x r).trans (if_neg (not_le.2 hr))

/-- Settles O42: with the memory and the `I` of the store, the load reads the stored run. -/
theorem loadAfterStoreRestoresTheRegisters : Obligations.LoadAfterStoreRestoresTheRegisters := by
  intro x s t u w hm hstore hmem hi hload r hr
  obtain ⟨t', ht, hstored, -⟩ := storeRegistersWritesTheRun x s hm
  obtain ⟨w', hw, hloaded, -⟩ := loadRegistersReadsTheRun x u
  cases ht.symm.trans hstore
  cases hw.symm.trans hload
  calc w.readV r
    _ = u.readByte (u.ea r.val) := hloaded r hr
    _ = t.readByte (s.ea r.val) := by rw [State.readByte, hmem, State.ea, hi]; rfl
    _ = s.readV r := hstored r hr

/-- Settles O43: `EA(k + 1)` is the address after `EA(k)`, since the fetch does not reach the end of memory. -/
theorem storedBytesAreFetched : Obligations.StoredBytesAreFetched := by
  intro x k k' s t hm hstore hk' hsucc hpc hea
  obtain ⟨t', ht, hstored, -, -, hframe⟩ := storeRegistersWritesTheRun x s hm
  cases ht.symm.trans hstore
  have htpc : t.pc = s.pc := hframe .pc (by simp)
  have hk : k ≤ x := by
    rw [Fin.le_def] at hk' ⊢
    omega
  have hea' : (s.ea k'.val).toNat = s.pc.toNat + 1 := by
    simp only [State.ea, addrOf, BitVec.toNat_ofNat] at hea ⊢
    omega
  rw [← htpc] at hea hea'
  rw [fetchWord_eq_wordOfBytes hea hea', wordOfBytes_toNat, hstored k hk, hstored k' hk']

end Sys2Proof.Machine
end

section
/-! PROOFS. The frame buffer (44_display.md): clear, the draw cell by cell, its collision flag, and the double draw
(R181 to R184). -/

namespace Sys2Proof.Machine

/-- Settles O44: the clear buffer is clear, and the event is the one other part written. -/
theorem clearZeroesEveryCell : Obligations.ClearZeroesEveryCell :=
  fun s => ⟨_, rfl, FrameBuffer.cell_clear, rfl, State.frame_two (s.frame_setFb _) (State.frame_emit _ _)⟩

/-- The flag byte is one of two values, and names its bit (R182). -/
theorem flagByte_eq_one (b : Bool) : flagByte b = 0x01 ↔ b = true := by cases b <;> simp [flagByte]
theorem flagByte_eq_zero (b : Bool) : flagByte b = 0x00 ↔ ¬ b = true := by cases b <;> simp [flagByte]

section
variable (s : State) (x y : RegIx) (n : Nat)

/-- A draw XORs the sprite bit that lands on a cell into it. -/
theorem State.draw_cell (r : Fin 32) (c : Fin 64) :
    (s.draw x y n).fb.cell r c = (s.fb.cell r c ^^ s.spriteBit x y n r c) := by
  rw [State.draw, Canvas.drawRows_cell, State.rowsBit_sprite]

/-- A draw hits when a landed bit falls on a set cell. -/
theorem State.draw_hit : (s.draw x y n).hit = true ↔
    ∃ r c, s.spriteBit x y n r c = true ∧ s.fb.cell r c = true := by
  simp [State.draw, Canvas.drawRows_hit, State.rowsBit_sprite]

/-- What Dxyn leaves: the frame buffer cell by cell, and `VF` by the collision. -/
theorem exec_drw : ∃ t, exec (.drw x y n) s = .next t ∧
    (∀ r c, t.fb.cell r c = (s.fb.cell r c ^^ s.spriteBit x y n r c)) ∧
    (t.readV VF = 0x01 ↔ ∃ r c, s.spriteBit x y n r c = true ∧ s.fb.cell r c = true) ∧
    (t.readV VF = 0x00 ↔ ¬ ∃ r c, s.spriteBit x y n r c = true ∧ s.fb.cell r c = true) ∧
    s.regsUnchangedBut t [VF] ∧ s.unchangedBut t [.regs, .fb] := by
  have hVF : ((s.setFb (s.draw x y n).fb).setV VF (flagByte (s.draw x y n).hit)).readV VF =
      flagByte (s.draw x y n).hit := State.setV_readV_self _ _ _
  refine ⟨_, rfl, s.draw_cell x y n, ?_, ?_, State.regsUnchangedBut_setV _ VF _,
    exec_frame (i := .drw x y n) rfl⟩
  · rw [hVF, flagByte_eq_one, State.draw_hit]
  · rw [hVF, flagByte_eq_zero, State.draw_hit]

end

/-- Settles O45: the two clauses about `VF` are the collision and its negation. -/
theorem drawXorsTheSpriteAndReportsCollision : Obligations.DrawXorsTheSpriteAndReportsCollision := by
  intro x y n s
  obtain ⟨t, ht, hcell, hone, hzero, hregs, hframe⟩ := exec_drw s x y n
  refine ⟨t, ht, hcell, hone.2, fun hnone => hzero.2 ?_, hregs, hframe⟩
  rintro ⟨r, c, hbit, hset⟩
  rw [hnone r c hbit] at hset
  cases hset

/-- The sprite depends on the two coordinate registers, `I` and memory (R182). -/
theorem State.spriteBit_congr {s t : State} {x y : RegIx} (n : Nat) (hx : t.readV x = s.readV x)
    (hy : t.readV y = s.readV y) (hi : t.i = s.i) (hmem : ∀ a, t.readByte a = s.readByte a) (r : Fin 32)
    (c : Fin 64) : t.spriteBit x y n r c = s.spriteBit x y n r c := by
  simp only [State.spriteBit, State.ea, hx, hy, hi, hmem]

/-- A landed bit that meets a set cell after a draw met an unset cell before it, which that draw set. -/
theorem hit_after_xor {cell bit : Bool} :
    (bit = true ∧ (cell ^^ bit) = true) ↔ (cell = false ∧ (cell ^^ bit) = true) := by
  cases cell <;> cases bit <;> simp

/-- Settles O46: the second draw lands the same bits, so each cell is XORed twice with the same bit. -/
theorem doubleDrawRestoresTheFrameBuffer : Obligations.DoubleDrawRestoresTheFrameBuffer := by
  intro x y n s t u hdraw hx hy hdraw'
  obtain ⟨t', ht, hcell, -, -, -, hframe⟩ := exec_drw s x y n
  obtain ⟨u', hu, hcell', hone, hzero, -, -⟩ := exec_drw t x y n
  cases ht.symm.trans hdraw
  cases hu.symm.trans hdraw'
  have hbit : ∀ r c, t.spriteBit x y n r c = s.spriteBit x y n r c :=
    State.spriteBit_congr n hx hy (hframe .index (by simp)) (hframe .mem (by simp))
  have hhit : (∃ r c, t.spriteBit x y n r c = true ∧ t.fb.cell r c = true) ↔
      ∃ r c, s.fb.cell r c = false ∧ t.fb.cell r c = true := by
    simp only [hbit, hcell, hit_after_xor]
  refine ⟨fun r c => ?_, hone.trans hhit, hzero.trans (not_congr hhit)⟩
  rw [hcell', hcell, hbit, Bool.xor_assoc, Bool.xor_self, Bool.xor_false]

end Sys2Proof.Machine
end

section
/-! PROOFS. The host operations (60_exceptions.md, 70_reset_and_hazards.md): a delivered key, ticks, program loads,
`reset` and power-on. -/

namespace Sys2Proof.Machine

/-! ## Delivered keys (R217) -/

/-- A key delivered to a waiting core. -/
theorem step_deliverKey {s : State} {k : Nat} {x : RegIx} {rest : List HostOp}
    (hhost : s.host = .deliverKey k :: rest) (hk : k < 16) (hw : s.wait = some x) :
    ∃ t, step s = .next t ∧ (t.readV x).toNat = k ∧ t.wait = none ∧ t.host = rest ∧
      s.regsUnchangedBut t [x] ∧ s.unchangedBut t [.regs, .wait, .host] := by
  have hbyte : (BitVec.ofNat 8 k).toNat = k := by
    rw [BitVec.toNat_ofNat]
    exact Nat.mod_eq_of_lt (by omega)
  refine ⟨_, (step_of_host_cons hhost).trans (deliverKey_waiting (s := s.setHost rest) hk hw), ?_, rfl, rfl,
    State.regsUnchangedBut_setV (s.setHost rest) x _, ?_⟩
  · rw [State.setWait_readV, State.setV_readV_self, hbyte]
  · exact State.unchangedBut_mono (by simp) (State.frame_two (s.frame_setHost rest) (frame_delivered _ x _))

/-- Settles O52: the three cases of `deliverKey`. -/
theorem deliverKeyWritesTheWaitingRegister : Obligations.DeliverKeyWritesTheWaitingRegister := by
  intro s k rest hhost
  refine ⟨fun hk x hw => step_deliverKey hhost hk hw, fun hk hw => ?_, fun hk => ?_⟩
  · exact (step_of_host_cons hhost).trans (deliverKey_idle (s := s.setHost rest) hk hw)
  · exact (step_of_host_cons hhost).trans (deliverKey_refused _ hk)

/-- Settles O51, by induction on the steps before the key: each is gated and only leaves the queue. -/
theorem keyWaitEndsAtTheDeliveredKey : Obligations.KeyWaitEndsAtTheDeliveredKey := by
  intro inputs
  induction inputs with
  | nil =>
    intro k x rest s hk _ hw hhost
    obtain ⟨t, ht, hspec⟩ := step_deliverKey hhost hk hw
    exact ⟨t, (core_run_succ 0 ht).trans (core_run_zero t), hspec⟩
  | cons p inputs ih =>
    intro k x rest s hk hf hw hhost
    obtain ⟨hstep, -⟩ := gatedStepChangesNothing s p.1 p.2
      (inputs.map (fun p => HostOp.step p.1 p.2) ++ .deliverKey k :: rest) (.inl hhost) (.inr (by simp [hw]))
    obtain ⟨t, ht, hx, hwait, hrest, hregs, hframe⟩ := ih k x rest
      (s.setHost (inputs.map (fun p => HostOp.step p.1 p.2) ++ .deliverKey k :: rest)) hk hf hw rfl
    refine ⟨t, (core_run_succ _ hstep).trans ht, hx, hwait, hrest, hregs, ?_⟩
    exact State.unchangedBut_mono (by simp) (State.frame_two (s.frame_setHost _) hframe)

/-! ## Ticks (R223, R224) -/

theorem step_tick {s : State} {rest : List HostOp} (hhost : s.host = .tick :: rest) :
    ∃ t, step s = .next t ∧ t.dt.toNat = s.dt.toNat - 1 ∧ t.st.toNat = s.st.toNat - 1 ∧ t.host = rest ∧
      s.unchangedBut t [.dt, .st, .host] := by
  refine ⟨_, step_of_host_cons hhost, countDown_toNat s.dt, countDown_toNat s.st, rfl, ?_⟩
  exact State.unchangedBut_mono (by simp) (State.frame_two (s.frame_setHost rest) (frame_tick _))

/-- Settles O53: the sound stays on when more than one tick was left. -/
theorem tickCountsBothTimersDown : Obligations.TickCountsBothTimersDown := by
  intro s rest hhost
  obtain ⟨t, ht, hdt, hst, hrest, hframe⟩ := step_tick hhost
  refine ⟨t, ht, hdt, hst, ?_, hrest, hframe⟩
  rw [soundActive_iff, hst]
  omega

/-- Settles O54, by induction on the ticks. -/
theorem repeatedTicksFloorAtZero : Obligations.RepeatedTicksFloorAtZero := by
  intro n rest
  induction n with
  | zero => exact fun s hhost => ⟨s, core_run_zero s, rfl, rfl, hhost, fun p _ => s.samePart_refl p⟩
  | succ n ih =>
    intro s hhost
    obtain ⟨t, ht, hdt, hst, hrest, hframe⟩ := step_tick (rest := List.replicate n .tick ++ rest) hhost
    obtain ⟨u, hu, hdt', hst', hrest', hframe'⟩ := ih t hrest
    refine ⟨u, (core_run_succ n ht).trans hu, ?_, ?_, hrest', State.unchangedBut_trans hframe hframe'⟩
    · rw [hdt', hdt, Nat.sub_sub, Nat.add_comm]
    · rw [hst', hst, Nat.sub_sub, Nat.add_comm]

/-! ## Program loads (R244, R245) -/

section
variable {s : State} {bytes : List Byte}

theorem loadProgram_fits (h : 0x200 + bytes.length ≤ 0x1000) : loadProgram bytes s =
    (s.setMem (s.mem.writeRun 0x200 bytes)).emit (.loadResult none) :=
  if_pos h

theorem loadProgram_tooLong (h : 0x200 + bytes.length > 0x1000) :
    loadProgram bytes s = s.emit (.loadResult (some .outOfBoundsLoad)) :=
  if_neg (Nat.not_le.2 h)

end

/-- Settles O55: the image is one run of writes, and its window does not wrap. -/
theorem loadProgramCopiesTheImage : Obligations.LoadProgramCopiesTheImage := by
  intro s bytes rest hm hhost hfit
  have hload := loadProgram_fits (s := s.setHost rest) hfit
  refine ⟨_, (step_of_host_cons hhost).trans (congrArg Host.Outcome.next hload), fun k hk => ?_, fun a ha => ?_,
    rfl, rfl, ?_⟩
  · exact Memory.read_writeRun_at 0x200 bytes k hk hm (by rw [memSize]; omega)
  · refine Memory.read_writeRun_outside 0x200 bytes a hm (fun k hk e => ?_)
    rw [e, addrOf, BitVec.toNat_ofNat] at ha
    omega
  · rw [← hload]
    exact State.unchangedBut_mono (by simp) (State.frame_two (s.frame_setHost rest) (frame_loadProgram bytes _))

/-- Settles O56: only the event is added. -/
theorem oversizedLoadIsRejectedWhole : Obligations.OversizedLoadIsRejectedWhole := by
  intro s bytes rest hhost hlong
  have hload := loadProgram_tooLong (s := s.setHost rest) hlong
  refine ⟨_, (step_of_host_cons hhost).trans (congrArg Host.Outcome.next hload), rfl, rfl, ?_⟩
  exact State.unchangedBut_mono (by simp) (State.frame_two (s.frame_setHost rest) (State.frame_emit _ _))

/-! ## `reset` (R241 to R243) -/

theorem frame_hardReset (s : State) :
    s.unchangedBut (hardReset s) [.regs, .index, .pc, .stack, .dt, .st, .fb, .mem, .wait, .fault] := by
  intro p hp
  cases p with
  | inputs => exact ⟨rfl, rfl, rfl⟩
  | params | host | events => rfl
  | _ => simp at hp

/-- Settles O57: every field that `reset` writes, then the font and what is above it. -/
theorem resetOperationRestoresTheCore : Obligations.ResetOperationRestoresTheCore := by
  intro s rest hm hhost
  refine ⟨_, step_of_host_cons hhost, hardReset_readV _, rfl, rfl, rfl, rfl, rfl, hardReset_cell _, rfl, rfl,
    hardReset_readByte_font (s := s.setHost rest) hm,
    fun a ha => hardReset_readByte_above (s := s.setHost rest) hm ha, rfl, ?_⟩
  exact State.unchangedBut_mono (by simp) (State.frame_two (s.frame_setHost rest) (frame_hardReset _))

/-! ## Power-on (R240) -/

/-- `MEM_INIT` stands above the font. -/
theorem powerOn_readByte_above (p : Params) (memInit : Nat → Byte) {a : Addr} (ha : 0x50 ≤ a.toNat) :
    (powerOn p memInit).readByte a = memInit a.toNat := by
  rw [powerOn, hardReset_readByte_above (Memory.wf_ofContents _) ha]
  exact (Memory.read_ofContents _ a).trans (if_neg (Nat.not_lt.2 ha))

/-- The font of the parameters stands below 0x050. -/
theorem powerOn_readByte_font (p : Params) (memInit : Nat → Byte) (d : Fin 16) (j : Fin 5) :
    (powerOn p memInit).readByte (BitVec.ofNat 12 (5 * d.val + j.val)) = p.font[d][j] :=
  hardReset_readByte_font (Memory.wf_ofContents _) d j

theorem reset_readByte (a : Addr) : State.reset.readByte a = unlisted a.toNat := rfl

theorem reset_readByte_above {a : Addr} (ha : 0x50 ≤ a.toNat) : State.reset.readByte a = memInit a.toNat :=
  (reset_readByte a).trans (if_neg (Nat.not_lt.2 ha))

theorem reset_readByte_font (d : Fin 16) (j : Fin 5) :
    State.reset.readByte (BitVec.ofNat 12 (5 * d.val + j.val)) = defaultFont[d][j] := by
  have hlt : 5 * d.val + j.val < fontSize := by
    rw [fontSize]
    omega
  have haddr : (BitVec.ofNat 12 (5 * d.val + j.val)).toNat = 5 * d.val + j.val := by
    rw [BitVec.toNat_ofNat]
    omega
  rw [reset_readByte, haddr, unlisted, if_pos hlt, List.getD_eq_getElem?_getD, fontBytes_getElem?,
    Option.getD_some]

/-- Every address below 0x050 is one of the font's (R58). -/
theorem exists_glyph_row {a : Addr} (ha : a.toNat < 0x50) :
    ∃ (d : Fin 16) (j : Fin 5), a = BitVec.ofNat 12 (5 * d.val + j.val) := by
  refine ⟨⟨a.toNat / 5, by omega⟩, ⟨a.toNat % 5, Nat.mod_lt _ (by decide)⟩, ?_⟩
  rw [Nat.div_add_mod, BitVec.ofNat_toNat, BitVec.setWidth_eq]

/-- With the defaults, power-on leaves nothing that an unlisted address does not read as anyway (log 8). -/
theorem powerOn_default_mem : (powerOn defaultParams memInit).mem = State.reset.mem := by
  refine Memory.ext_of_read (powerOn_mem_wf _ _) State.reset_mem_wf (fun a => ?_)
  change (powerOn defaultParams memInit).readByte a = State.reset.readByte a
  by_cases ha : a.toNat < 0x50
  · obtain ⟨d, j, rfl⟩ := exists_glyph_row ha
    rw [powerOn_readByte_font, reset_readByte_font]
    rfl
  · rw [powerOn_readByte_above _ _ (Nat.not_lt.1 ha), reset_readByte_above (Nat.not_lt.1 ha)]

/-- Settles O58: power-on is a `reset`, and with the defaults its memory is that of `State.reset`. -/
theorem powerOnGivesTheResetState : Obligations.PowerOnGivesTheResetState := by
  refine ⟨fun p memInit => ⟨rfl, powerOn_mem_wf p memInit, hardReset_readV _, rfl, rfl, rfl, rfl, rfl,
    hardReset_cell _, rfl, rfl, powerOn_readByte_font p memInit,
    fun _ => powerOn_readByte_above p memInit⟩, ?_⟩
  calc powerOn defaultParams memInit
    _ = State.reset.setMem (powerOn defaultParams memInit).mem := rfl
    _ = State.reset := by rw [powerOn_default_mem]; rfl

/-- Settles O59: the fields by definition, memory by what an unlisted address reads as. -/
theorem resetStateHoldsTheStatedValues : Obligations.ResetStateHoldsTheStatedValues :=
  ⟨fun r => by simp [State.reset, State.readV], rfl, rfl, rfl, rfl, rfl, FrameBuffer.cell_clear, rfl, rfl,
    reset_readByte_font, fun _ => reset_readByte_above⟩

end Sys2Proof.Machine
end
